-- ==== Sys2Proof/Word.lean ====
section
/-! DEFINITION. The words of fp_format_encoder: the byte of the two streams (00_scope.md R9) and the
8-bit command word (30_encoding.md R70).  A single bit is a `Bool`, `true` = 1 (00_scope.md section 5.1). -/

namespace Sys2Proof

/-- The byte of both streams: 8 bits, bit 7 the most significant (00_scope.md R9). -/
abbrev Byte := BitVec 8

/-- The command word `cmd[7:0]` of the single format CMD8 (30_encoding.md R70). -/
abbrev CmdWord := BitVec 8

end Sys2Proof
end

