-- ==== Sys2Proof/Machine/Bits.lean ====
section
/-! DEFINITION. The integer and bit-field primitives of the rules (00_scope.md R11 to R14). -/

namespace Sys2Proof.Machine

/-- `bitLength(n)`: the least `k` with `n < 2^k` (R11). -/
def bitLength (n : Nat) : Nat := if n = 0 then 0 else Nat.log2 n + 1

/-- `bit(n, i)` for any integer `i`: 0 below index 0 (R12). -/
def bitAt (n : Nat) : Int → Bool
  | .ofNat i => n.testBit i
  | .negSucc _ => false

/-- Counts the low zero bits of `n`, looking at `fuel` bits at most. -/
def countTrailingZeros : (fuel n : Nat) → Nat
  | 0, _ => 0
  | fuel + 1, n => if n % 2 = 0 then countTrailingZeros fuel (n / 2) + 1 else 0

/-- `tz(n)` for `n > 0`: the largest `t` such that `2^t` divides `n` (R13). -/
def trailingZeros (n : Nat) : Nat := countTrailingZeros (bitLength n) n

/-- `v[i] <- b` on a byte. -/
def setBit (v : Byte) (i : Nat) (b : Bool) : Byte :=
  if b then v ||| (1#8 <<< i) else v &&& ~~~(1#8 <<< i)

end Sys2Proof.Machine
end

