-- ==== Sys2Proof/Syntax.lean ====
section
/-! DEFINITION. The operand and result types of the commands (41_format_descriptor_and_value.md) and the
nine commands of 30_encoding.md R71 as one inductive.  A command carries the operands that the ports of
R72 supply with it; an operand the source allows to be absent is an `Option` (R72, log entry 11).
All integers are unbounded (00_scope.md R8, log entry 10). -/

namespace Sys2Proof

/-- A Format Descriptor as presented on the ports `fmt.elen`, `fmt.mlen`, `fmt.bias_present`, `fmt.bias`
(R110, R72): any integers, not yet checked. -/
structure Descriptor where
  elen : Int
  mlen : Int
  bias : Option Int
deriving DecidableEq, Repr

/-- All operand ports sampled when a command is issued (R72). -/
structure Ports where
  fmt : Descriptor
  exp : Option Int
  sig : Option Nat
deriving DecidableEq, Repr

/-- What the host presents to issue a command: the command word and the operand ports (R70, R72). -/
structure Request where
  cmd   : CmdWord
  ports : Ports
deriving DecidableEq, Repr

/-- An Exact Value: exactly four variants (R115).  Equality is structural (R120). -/
inductive ExactValue where
  | zero (sign : Bool)
  | infinity (sign : Bool)
  | nan
  | number (sign : Bool) (exp : Int) (sig : Nat)
deriving DecidableEq, Repr

/-- The nine commands of the opcode table (R71) with their operands (R72, R78). -/
inductive Instr where
  | srcNext
  | snkWrite (b : Bool)
  | snkFlush
  | snkClose
  | encZero (fmt : Descriptor) (s : Bool)
  | encInf (fmt : Descriptor) (s : Bool)
  | encNan (fmt : Descriptor)
  | encNum (fmt : Descriptor) (s : Bool) (exp : Option Int) (sig : Option Nat)
  | decode (fmt : Descriptor)
deriving DecidableEq, Repr

end Sys2Proof
end

