-- ==== Sys2Proof/Config.lean ====
section
/-! DEFINITION. What is fixed outside the block and what the spec leaves free: the four preset descriptors
(constants of the notation, R114), and the one unspecified value, the byte a reset event leaves in
SRC.byte (R215, 93_implementation_defined.md U1). -/

namespace Sys2Proof

/-- Preset (5, 10, 15) (R114). -/
def Config.half : Descriptor := ⟨5, 10, some 15⟩

/-- Preset (8, 23, 127) (R114). -/
def Config.single : Descriptor := ⟨8, 23, some 127⟩

/-- Preset (11, 52, 1023) (R114). -/
def Config.double : Descriptor := ⟨11, 52, some 1023⟩

/-- Preset (15, 112, 16383) (R114). -/
def Config.quad : Descriptor := ⟨15, 112, some 16383⟩

/-- FREE VALUE.  The byte that the `n`-th reset event of a run leaves in SRC.byte: R215 calls it
unspecified.  No body, so nothing can be proved of it (log entry 4). -/
opaque Config.unspecifiedByte : Nat → Byte

end Sys2Proof
end

