-- ==== Sys2Proof/WellFormed.lean ====
section
/-! DEFINITION. Well-formed commands: those whose operands would construct in the source's sense, that is
FmtValid (R111) and the checks of a Number (R117, R118).  A command that is not well-formed can still be
issued: its meaning takes ArgumentError (R186).  Log entry 18. -/

namespace Sys2Proof

/-- `FmtValid(fmt)`: `E >= 2`, `M >= 1` and a bias is present (R111).  No other check is made (R112). -/
def Descriptor.wellFormed (f : Descriptor) : Bool :=
  decide (2 ≤ f.elen) && decide (1 ≤ f.mlen) && f.bias.isSome

/-- The operands of a Number: exponent and significand present (R117), significand not 0 (R118). -/
def numberWellFormed (exp : Option Int) (sig : Option Nat) : Bool :=
  exp.isSome && sig.isSome && decide (sig ≠ some 0)

/-- Every operand check the spec makes for the command (R186). -/
def Instr.wellFormed : Instr → Bool
  | .srcNext => true
  | .snkWrite _ => true
  | .snkFlush => true
  | .snkClose => true
  | .encZero fmt _ => fmt.wellFormed
  | .encInf fmt _ => fmt.wellFormed
  | .encNan fmt => fmt.wellFormed
  | .encNum fmt _ exp sig => fmt.wellFormed && numberWellFormed exp sig
  | .decode fmt => fmt.wellFormed

/-- `i` is well-formed. -/
abbrev Instr.WellFormed (i : Instr) : Prop := i.wellFormed = true

end Sys2Proof
end

