-- ==== Sys2Proof/Decode.lean ====
section
/-! DEFINITION. Decoding and encoding of the command word CMD8 (30_encoding.md Part B): the nine match/mask
rows of R71, a decoder total on every 8-bit word that rejects an illegal word by name (R76), the encoder
written from the patterns of R71 and R78, the pseudo-instruction `ENC fmt, value` (R79), and the
reading of a word of spec/opcode_table.json. -/

namespace Sys2Proof

/-- The nine operation codes, without operands (R71). -/
inductive Opcode where
  | srcNext | snkWrite | snkFlush | snkClose | encZero | encInf | encNan | encNum | decode
deriving DecidableEq, Repr

/-- One row of the opcode table: a word `c` selects the row whose `(c AND mask) = pattern` (R71). -/
structure Row where
  op      : Opcode
  pattern : CmdWord
  mask    : CmdWord
deriving DecidableEq, Repr

/-- The opcode table of R71, in its order. -/
def opcodeRows : List Row :=
  [ ⟨.srcNext,  0x10#8, 0xFF#8⟩,
    ⟨.snkWrite, 0x20#8, 0xFE#8⟩,
    ⟨.snkFlush, 0x30#8, 0xFF#8⟩,
    ⟨.snkClose, 0x40#8, 0xFF#8⟩,
    ⟨.encZero,  0x50#8, 0xFE#8⟩,
    ⟨.encInf,   0x54#8, 0xFE#8⟩,
    ⟨.encNan,   0x58#8, 0xFF#8⟩,
    ⟨.encNum,   0x5C#8, 0xFE#8⟩,
    ⟨.decode,   0x60#8, 0xFF#8⟩ ]

/-- `c` selects the row (R71). -/
def Row.selects (row : Row) (c : CmdWord) : Bool := (c &&& row.mask) == row.pattern

/-- Why a command word is illegal, in the order R76 lists the reasons.  The response does not say which
(R189); the names are the model's (log entry 19). -/
inductive Reject where
  /-- `op` is 0x0 or 0x7 to 0xF. -/
  | reservedOp
  /-- `cmd[1] = 1`. -/
  | reservedBit
  /-- `op` is not 0x5 and `cmd[3:2]` is not 00. -/
  | strayTag
  /-- `cmd[0] = 1` on a command without a one-bit immediate. -/
  | strayImmediate
deriving DecidableEq, Repr

/-- The name of an illegal word's fault (R76). -/
def rejection (c : CmdWord) : Reject :=
  let op := c.extractLsb' 4 4
  if op = 0#4 ∨ 7 ≤ op.toNat then .reservedOp
  else if c.getLsbD 1 then .reservedBit
  else if op ≠ 5#4 ∧ c.extractLsb' 2 2 ≠ 0#2 then .strayTag
  else .strayImmediate

/-- The command of a selected row: the immediate `b` is `cmd[0]` (R70), the other operands come from the
ports, and ports the command does not use are ignored (R72). -/
def instrOf (op : Opcode) (r : Request) : Instr :=
  let b := r.cmd.getLsbD 0
  match op with
  | .srcNext => .srcNext
  | .snkWrite => .snkWrite b
  | .snkFlush => .snkFlush
  | .snkClose => .snkClose
  | .encZero => .encZero r.ports.fmt b
  | .encInf => .encInf r.ports.fmt b
  | .encNan => .encNan r.ports.fmt
  | .encNum => .encNum r.ports.fmt b r.ports.exp r.ports.sig
  | .decode => .decode r.ports.fmt

/-- Decode what the host presents: the command, or the name of the fault of an illegal word (R71, R76). -/
def decodeRequest (r : Request) : Except Reject Instr :=
  match opcodeRows.find? (fun row => row.selects r.cmd) with
  | some row => .ok (instrOf row.op r)
  | none => .error (rejection r.cmd)

/-- Operand ports with nothing on them: every integer 0, every presence bit 0. -/
def Ports.idle : Ports := ⟨⟨0, 0, none⟩, none, none⟩

/-- The one-bit immediate in bit 0 of a pattern (R70, R78). -/
def withImmediate (pattern : CmdWord) (b : Bool) : CmdWord :=
  pattern ||| (BitVec.ofBool b).setWidth 8

/-- The encoder: the command word and the ports that R78 lists for the command; unused ports idle. -/
def encodeInstr : Instr → Request
  | .srcNext => ⟨0x10#8, .idle⟩
  | .snkWrite b => ⟨withImmediate 0x20#8 b, .idle⟩
  | .snkFlush => ⟨0x30#8, .idle⟩
  | .snkClose => ⟨0x40#8, .idle⟩
  | .encZero fmt s => ⟨withImmediate 0x50#8 s, ⟨fmt, none, none⟩⟩
  | .encInf fmt s => ⟨withImmediate 0x54#8 s, ⟨fmt, none, none⟩⟩
  | .encNan fmt => ⟨0x58#8, ⟨fmt, none, none⟩⟩
  | .encNum fmt s exp sig => ⟨withImmediate 0x5C#8 s, ⟨fmt, exp, sig⟩⟩
  | .decode fmt => ⟨0x60#8, ⟨fmt, none, none⟩⟩

/-- The pseudo-instruction `ENC fmt, value` (R79 (a)). -/
def encCommand (fmt : Descriptor) : ExactValue → Instr
  | .zero s => .encZero fmt s
  | .infinity s => .encInf fmt s
  | .nan => .encNan fmt
  | .number s exp sig => .encNum fmt s (some exp) (some sig)

/-- The request that stands for a word of spec/opcode_table.json: its low `nbits` bits as the command word
and idle operand ports (log entry 8). -/
def tableRequest (nbits w : Nat) : Request := ⟨BitVec.ofNat 8 (w % 2 ^ nbits), .idle⟩

/-- The instruction the decoder reads from the bits of a row of spec/opcode_table.json. -/
def decodeTableWord (nbits w : Nat) : Option Instr :=
  match decodeRequest (tableRequest nbits w) with
  | .ok i => some i
  | .error _ => none

end Sys2Proof
end

