-- ==== Sys2Proof/Machine/State.lean ====
section
/-! DEFINITION. The state of the machine as plain data: the five state elements of the block (10_state.md
R20), the two byte queues between host and block (R28, R29), the command and response channels (00_scope.md
R16, R17; 30_encoding.md R72, R73), the counter of free values, and the state after reset (R36). -/

namespace Sys2Proof.Machine

/-- The registers of the Bit Source: the byte most recently pulled and how many of its bits are not yet
delivered; those are `byte[cnt-1:0]` (R20, R21, R22). -/
structure BitSource where
  byte : Byte
  cnt  : Nat
deriving DecidableEq, Repr

/-- The registers of the Bit Sink: the pending byte, how many bits are pending in it (they occupy
`byte[7:8-cnt]`, the rest is 0), and the closed flag (R20, R23, R24). -/
structure BitSink where
  byte   : Byte
  cnt    : Nat
  closed : Bool
deriving DecidableEq, Repr

/-- The five statuses of a response (30_encoding.md R75). -/
inductive Status where
  | ok | argumentError | stateError | ioError | illegalCommand
deriving DecidableEq, Repr

/-- The exceptions of the block: the four statuses other than OK (60_exceptions.md R185). -/
inductive ErrorStatus where
  | argument | state | io | illegal
deriving DecidableEq, Repr

/-- The result a command returns on OK, if it has one (R73). -/
inductive Result where
  | nothing
  | bit (b : Bool)
  | value (v : ExactValue)
deriving DecidableEq, Repr

/-- A response: OK with its result, or an exception and no result at all (R73, R185). -/
inductive Response where
  | ok (r : Result)
  | error (e : ErrorStatus)
deriving DecidableEq, Repr

/-- The host's moves (20_memory.md R57, 30_encoding.md R79). -/
inductive HostMove where
  /-- Issue a command. -/
  | command (r : Request)
  /-- HOST.PUSH: append bytes to the tail of SRC_IN. -/
  | push (bytes : List Byte)
  /-- HOST.TAKE: remove all bytes of SNK_OUT. -/
  | take
  /-- Remove `count` bytes of SNK_OUT from position `start` on ("remove any bytes", log entry 14). -/
  | remove (start count : Nat)
  /-- HOST.COPY: copy all bytes of SNK_OUT to the tail of SRC_IN without removing them. -/
  | copy
  /-- HOST.RESET: assert reset. -/
  | reset
deriving DecidableEq, Repr

/-- The whole machine.  `srcIn` and `snkOut` have the head (oldest byte) first; `moves` holds the host's
moves still to come and `responses` the responses given so far, both oldest first (log entries 1 and 6);
`draws` counts the free values taken (log entry 4). -/
structure State where
  src       : BitSource
  snk       : BitSink
  srcIn     : List Byte
  snkOut    : List Byte
  moves     : List HostMove
  responses : List Response
  draws     : Nat
deriving DecidableEq, Repr

/-- The machine never stops with a fault: every failure is a response (R17, R185; log entry 16). -/
inductive Fault where
deriving DecidableEq, Repr

/-- Why `exec` refuses an instruction. -/
inductive Refusal where
  /-- Raised by an arm of `exec` whose instruction has no meaning yet; no arm raises it now.  Safe. -/
  | notModelled (mnemonic : String)
deriving DecidableEq, Repr

/-- Right after reset (R36): a fresh Bit Source and a fresh Bit Sink.  SRC.byte is unspecified there and
0x00 is the model's choice (log entry 3); the queues and channels are empty (log entries 5, 6, 9). -/
def State.reset : State where
  src := ⟨0x00#8, 0⟩
  snk := ⟨0x00#8, 0, false⟩
  srcIn := []
  snkOut := []
  moves := []
  responses := []
  draws := 0

end Sys2Proof.Machine
end

