-- ==== Sys2Proof/Machine/Channels.lean ====
section
/-! DEFINITION. Named updates of State, the two primitives on the byte queues (`MemRead(SRC_IN, 1)` and
`MemWrite(SNK_OUT, 1, v)`, 00_scope.md section 5.3), and `Run`, how a piece of a command ends: done with a value, or
by `raise X`, where state writes made before the raise persist (R195). -/

namespace Sys2Proof.Machine

/-- Write the registers of the Bit Source. -/
def State.setSource (s : State) (v : BitSource) : State := { s with src := v }

/-- Write the registers of the Bit Sink. -/
def State.setSink (s : State) (v : BitSink) : State := { s with snk := v }

/-- Write the queue SRC_IN. -/
def State.setSrcIn (s : State) (q : List Byte) : State := { s with srcIn := q }

/-- Write the queue SNK_OUT. -/
def State.setSnkOut (s : State) (q : List Byte) : State := { s with snkOut := q }

/-- Write the host's moves still to come. -/
def State.setMoves (s : State) (m : List HostMove) : State := { s with moves := m }

/-- Write the counter of free values. -/
def State.setDraws (s : State) (n : Nat) : State := { s with draws := n }

/-- Give the host a response (R73): it joins the end of the sequence of responses (R17). -/
def State.respond (s : State) (r : Response) : State := { s with responses := s.responses ++ [r] }

/-- How a piece of a command ends. -/
inductive Run (α : Type) where
  /-- It ends normally with a value. -/
  | done (a : α) (s : State)
  /-- It ends the command with `raise e`; `s` is the state at that point. -/
  | raised (e : ErrorStatus) (s : State)
deriving DecidableEq, Repr

/-- Statements within one command execute in the order written; a raise skips the rest. -/
def Run.andThen {α β : Type} (r : Run α) (f : α → State → Run β) : Run β :=
  match r with
  | .done a s => f a s
  | .raised e s => .raised e s

/-- `MemRead(SRC_IN, 1)`: remove and return the head byte; IOError if the queue is empty (R46, R55). -/
def memRead (s : State) : Run Byte :=
  match s.srcIn with
  | [] => .raised .io s
  | b :: rest => .done b (s.setSrcIn rest)

/-- `MemWrite(SNK_OUT, 1, v)`: append at the tail; never fails (R54). -/
def memWrite (v : Byte) (s : State) : State := s.setSnkOut (s.snkOut ++ [v])

end Sys2Proof.Machine
end

