-- ==== Sys2Proof/Machine/Flags.lean ====
section
/-! DEFINITION. The one flag of the block, SNK.closed (10_state.md R24, R32), the codes of the response status
(30_encoding.md R75) and the variant tags (R74).  There are no numeric flags (R32, R139). -/

namespace Sys2Proof.Machine

/-- A sink command on a closed sink raises StateError and changes nothing (60_exceptions.md R187). -/
def requireOpen (s : State) : Run Unit :=
  if s.snk.closed then .raised .state s else .done () s

/-- `SNK.closed <- 1` (R24, R93). -/
def markClosed (s : State) : State := s.setSink { s.snk with closed := true }

/-- The status a response reports (R75, R185). -/
def Response.status : Response → Status
  | .ok _ => .ok
  | .error .argument => .argumentError
  | .error .state => .stateError
  | .error .io => .ioError
  | .error .illegal => .illegalCommand

/-- The 3-bit code of a status (R75). -/
def Status.code : Status → BitVec 3
  | .ok => 0#3
  | .argumentError => 1#3
  | .stateError => 2#3
  | .ioError => 3#3
  | .illegalCommand => 4#3

/-- The 2-bit tag of a value variant, `r.tag` of a DECODE response (R74). -/
def valueTag : ExactValue → BitVec 2
  | .zero _ => 0#2
  | .infinity _ => 1#2
  | .nan => 2#2
  | .number _ _ _ => 3#2

end Sys2Proof.Machine
end

