-- ==== Sys2Proof/Machine/Ops.lean ====
section
/-! DEFINITION. The sub-operations the commands are built from (40_bit_stream_io.md section 1) and the ending of a
command: its OK response, or taking an exception (60_exceptions.md R195).  There is no return from an
exception (R196). -/

namespace Sys2Proof.Machine

/-- TAKING AN EXCEPTION (R195): nothing is saved, no mode or mask changes, control goes nowhere; the command
ends with its response carrying the status, and the state is as the raising rule left it. -/
def takeException (e : ErrorStatus) (s : State) : State := s.respond (.error e)

/-- The end of a command: `respond(OK, r)`, or the exception that was raised. -/
def finish : Run Result → Host.Outcome State Fault Refusal
  | .done r s => .next (s.respond (.ok r))
  | .raised e s => .next (takeException e s)

/-- The first half of NextBit: pull a byte when no undelivered bit remains, never earlier (R94, R47). -/
def pullIfEmpty (s : State) : Run Unit :=
  if s.src.cnt = 0 then
    (memRead s).andThen fun b s => .done () (s.setSource ⟨b, 8⟩)
  else .done () s

/-- The second half of NextBit: deliver the highest undelivered bit (R94, R41). -/
def deliverBit (s : State) : Run Bool :=
  .done (s.src.byte.getLsbD (s.src.cnt - 1)) (s.setSource { s.src with cnt := s.src.cnt - 1 })

/-- `NextBit()` (R94). -/
def nextBit (s : State) : Run Bool := (pullIfEmpty s).andThen fun _ s => deliverBit s

/-- `WriteBit(b)` (R95): the bit goes to position `7 - SNK.cnt`; the eighth bit emits the byte (R48). -/
def writeBit (b : Bool) (s : State) : Run Unit :=
  (requireOpen s).andThen fun _ s =>
    let byte := setBit s.snk.byte (7 - s.snk.cnt) b
    if s.snk.cnt + 1 = 8 then
      .done () ((memWrite byte s).setSink { s.snk with byte := 0x00#8, cnt := 0 })
    else .done () (s.setSink { s.snk with byte := byte, cnt := s.snk.cnt + 1 })

/-- The loop of ReadBits: `n` more bits onto the accumulator `a` (R96, R62). -/
def readBitsFrom : (n a : Nat) → State → Run Nat
  | 0, a, s => .done a s
  | n + 1, a, s => (nextBit s).andThen fun b s => readBitsFrom n (2 * a + b.toNat) s

/-- `ReadBits(n)` (R96). -/
def readBits (n : Nat) (s : State) : Run Nat := readBitsFrom n 0 s

/-- Writes `n` bits of `v`, from index `top` downward; indices below 0 give 0 (R12, R133, R135). -/
def writeSlice (v : Nat) : (top : Int) → (n : Nat) → State → Run Unit
  | _, 0, s => .done () s
  | top, n + 1, s => (writeBit (bitAt v top) s).andThen fun _ s => writeSlice v (top - 1) n s

/-- `WriteBits(v, n)` (R97): most significant bit first. -/
def writeBits (v n : Nat) (s : State) : Run Unit := writeSlice v (n - 1) n s

/-- `FlushPending()` (R98): a partially filled byte goes out as it stands; an empty one emits nothing. -/
def flushPending (s : State) : State :=
  if 0 < s.snk.cnt then
    (memWrite s.snk.byte s).setSink { s.snk with byte := 0x00#8, cnt := 0 }
  else s

end Sys2Proof.Machine
end

