-- ==== Sys2Proof/Machine/Operands.lean ====
section
/-! DEFINITION. The operands of the ENC commands and DECODE and their checks, made before any bit moves
(41_format_descriptor_and_value.md R111, R117, R118; 42_encoder.md R143; 60_exceptions.md R186). -/

namespace Sys2Proof.Machine

/-- A descriptor that passed FmtValid: exponent width, mantissa width, bias (R110). -/
structure Format where
  E    : Nat
  M    : Nat
  bias : Int
deriving DecidableEq, Repr

/-- `FmtValid(fmt)` (R111): the format, or nothing.  Never clamped, no default bias (R111, R112). -/
def formatOf (d : Descriptor) : Option Format :=
  if 2 ≤ d.elen ∧ 1 ≤ d.mlen then
    d.bias.map fun bias => ⟨d.elen.toNat, d.mlen.toNat, bias⟩
  else none

/-- The operand checks of ENC.NUM: both present (R117) and the significand not 0 (R118). -/
def numberOf (exp : Option Int) (sig : Option Nat) : Option (Int × Nat) :=
  match exp, sig with
  | some e, some g => if g = 0 then none else some (e, g)
  | _, _ => none

/-- An operand that fails its check raises ArgumentError; nothing has changed (R143, R186). -/
def requireOperand {α : Type} (o : Option α) (s : State) : Run α :=
  match o with
  | some a => .done a s
  | none => .raised .argument s

end Sys2Proof.Machine
end

