-- ==== Sys2Proof/Machine/BitStream.lean ====
section
/-! DEFINITION. The commands of the unit bit_stream_io (40_bit_stream_io.md section 2). -/

namespace Sys2Proof.Machine

/-- SRC.NEXT (R90): deliver one bit to the host. -/
def execSrcNext (s : State) : Host.Outcome State Fault Refusal :=
  finish ((nextBit s).andThen fun b s => .done (.bit b) s)

/-- SNK.WRITE b (R91): accept one bit from the host. -/
def execSnkWrite (b : Bool) (s : State) : Host.Outcome State Fault Refusal :=
  finish ((writeBit b s).andThen fun _ s => .done .nothing s)

/-- SNK.FLUSH (R92): force out the pending bits and keep the sink open. -/
def execSnkFlush (s : State) : Host.Outcome State Fault Refusal :=
  finish ((requireOpen s).andThen fun _ s => .done .nothing (flushPending s))

/-- SNK.CLOSE (R93): force out the pending bits and close the sink for good. -/
def execSnkClose (s : State) : Host.Outcome State Fault Refusal :=
  finish ((requireOpen s).andThen fun _ s => .done .nothing (markClosed (flushPending s)))

end Sys2Proof.Machine
end

