-- ==== Sys2Proof/Machine/Decoder.lean ====
section
/-! DEFINITION. The command of the unit fp_format_decoder (43_decoder.md R160): it reads exactly
`N = 1 + E + M` bits and answers the Exact Value they denote. -/

namespace Sys2Proof.Machine

/-- Step 2 (R162): read `n` more exponent bits, tracking whether all bits so far are 1. -/
def readExponent : (n efield : Nat) → (allOnes : Bool) → State → Run (Nat × Bool)
  | 0, efield, allOnes, s => .done (efield, allOnes) s
  | n + 1, efield, allOnes, s =>
    (nextBit s).andThen fun b s => readExponent n (2 * efield + b.toNat) (allOnes && b) s

/-- Step 3 (R163): read all `n` mantissa bits, tracking whether any is 1. -/
def readAnyBit : (n : Nat) → (any : Bool) → State → Run Bool
  | 0, any, s => .done any s
  | n + 1, any, s => (nextBit s).andThen fun b s => readAnyBit n (any || b) s

/-- Steps 5 to 8 (R165 to R168): zero, subnormal or normal, trailing zero bits trimmed.  The subnormal
exponent is `1 - bias - M + t` (R166, 90_conflicts.md C1). -/
def finiteValue (f : Format) (sign : Bool) (efield m : Nat) : ExactValue :=
  if efield = 0 ∧ m = 0 then .zero sign
  else if efield = 0 then
    let t := trailingZeros m
    .number sign (1 - f.bias - f.M + t) (m >>> t)
  else
    let m' := m + 2 ^ f.M
    let t := trailingZeros m'
    let g := m' >>> t
    .number sign (efield - f.bias - (bitLength g - 1 : Int)) g

/-- Steps 1 to 8 after the operand check (R161 to R168). -/
def decodeValue (f : Format) (s : State) : Run ExactValue :=
  (nextBit s).andThen fun sign s =>
  (readExponent f.E 0 true s).andThen fun e s =>
  if e.2 then
    (readAnyBit f.M false s).andThen fun any s =>
      .done (if any then .nan else .infinity sign) s
  else
    (readBits f.M s).andThen fun m s => .done (finiteValue f sign e.1 m) s

/-- DECODE fmt (R160). -/
def execDecode (fmt : Descriptor) (s : State) : Host.Outcome State Fault Refusal :=
  finish ((requireOperand (formatOf fmt) s).andThen fun f s =>
    (decodeValue f s).andThen fun v s => .done (.value v) s)

end Sys2Proof.Machine
end

