-- ==== Sys2Proof/Machine/Encoder.lean ====
section
/-! DEFINITION. The commands of the unit fp_format_encoder (42_encoder.md): each checks its operands, writes
exactly `N = 1 + E + M` bits in the order sign, exponent, mantissa, and responds OK (R125). -/

namespace Sys2Proof.Machine

/-- `EncodeZero(s)` (R126), also used by total underflow (R132). -/
def encodeZero (f : Format) (sign : Bool) (s : State) : Run Unit :=
  (writeBit sign s).andThen fun _ s =>
  (writeBits 0 f.E s).andThen fun _ s =>
  writeBits 0 f.M s

/-- `EncodeInfinity(s)` (R127), also used by overflow (R134). -/
def encodeInfinity (f : Format) (sign : Bool) (s : State) : Run Unit :=
  (writeBit sign s).andThen fun _ s =>
  (writeBits (2 ^ f.E - 1) f.E s).andThen fun _ s =>
  writeBits 0 f.M s

/-- The canonical NaN (R128, R65). -/
def encodeNan (f : Format) (s : State) : Run Unit :=
  (writeBit false s).andThen fun _ s =>
  (writeBits (2 ^ f.E - 1) f.E s).andThen fun _ s =>
  (writeBit true s).andThen fun _ s =>
  writeBits 0 (f.M - 1) s

/-- The loop of the rounding step: halve while the significand has more than `M + 1` bits, adding 1 when
the dropped bit was 1; the test is made again after every halving (R130). -/
def roundLoop (M : Nat) : (fuel sig : Nat) → Int → Nat × Int
  | 0, sig, exp => (sig, exp)
  | fuel + 1, sig, exp =>
    if M + 1 < bitLength sig then
      let low := sig.testBit 0
      let half := sig >>> 1
      roundLoop M fuel (if low then half + 1 else half) (exp + 1)
    else (sig, exp)

/-- `Round(sig, exp, M)` (R130).  The loop runs at most `bitLength(sig) - M` times (R137), so the fuel never
ends it early when `M >= 1` (log entry 13). -/
def roundSignificand (M sig : Nat) (exp : Int) : Nat × Int := roundLoop M (bitLength sig) sig exp

/-- The cases of ENC.NUM after rounding (R131 to R135): total underflow, subnormal, overflow, normal. -/
def encodeRounded (f : Format) (sign : Bool) (sig : Nat) (exp : Int) (s : State) : Run Unit :=
  let L : Int := bitLength sig - 1
  let ef : Int := exp + f.bias + L
  if ef ≤ 0 then
    if f.M + ef ≤ 0 then encodeZero f sign s
    else
      (writeBit sign s).andThen fun _ s =>
      (writeBits 0 f.E s).andThen fun _ s =>
      writeSlice sig (L - ef) f.M s
  else if 2 ^ f.E - 1 ≤ ef then encodeInfinity f sign s
  else
    (writeBit sign s).andThen fun _ s =>
    (writeBits ef.toNat f.E s).andThen fun _ s =>
    writeSlice sig (L - 1) f.M s

/-- The encoding of `Number(sign, exp, sig)` (R129): first the rounding step, then the cases. -/
def encodeNumber (f : Format) (sign : Bool) (exp : Int) (sig : Nat) (s : State) : Run Unit :=
  let r := roundSignificand f.M sig exp
  encodeRounded f sign r.1 r.2 s

/-- ENC.ZERO fmt, s (R126). -/
def execEncZero (fmt : Descriptor) (sign : Bool) (s : State) : Host.Outcome State Fault Refusal :=
  finish ((requireOperand (formatOf fmt) s).andThen fun f s =>
    (encodeZero f sign s).andThen fun _ s => .done .nothing s)

/-- ENC.INF fmt, s (R127). -/
def execEncInf (fmt : Descriptor) (sign : Bool) (s : State) : Host.Outcome State Fault Refusal :=
  finish ((requireOperand (formatOf fmt) s).andThen fun f s =>
    (encodeInfinity f sign s).andThen fun _ s => .done .nothing s)

/-- ENC.NAN fmt (R128). -/
def execEncNan (fmt : Descriptor) (s : State) : Host.Outcome State Fault Refusal :=
  finish ((requireOperand (formatOf fmt) s).andThen fun f s =>
    (encodeNan f s).andThen fun _ s => .done .nothing s)

/-- ENC.NUM fmt, s, exp, sig (R129): the descriptor is checked first, then the Number's operands (R143). -/
def execEncNum (fmt : Descriptor) (sign : Bool) (exp : Option Int) (sig : Option Nat) (s : State) :
    Host.Outcome State Fault Refusal :=
  finish ((requireOperand (formatOf fmt) s).andThen fun f s =>
    (requireOperand (numberOf exp sig) s).andThen fun n s =>
    (encodeNumber f sign n.1 n.2 s).andThen fun _ s => .done .nothing s)

end Sys2Proof.Machine
end

