-- ==== Sys2Proof/Machine/Dispatch.lean ====
section
/-! DEFINITION. One arm per command of the opcode table (30_encoding.md R71). -/

namespace Sys2Proof.Machine

def exec (i : Instr) (s : State) : Host.Outcome State Fault Refusal :=
  match i with
  | .srcNext => Sys2Proof.Machine.execSrcNext s
  | .snkWrite b => Sys2Proof.Machine.execSnkWrite b s
  | .snkFlush => Sys2Proof.Machine.execSnkFlush s
  | .snkClose => Sys2Proof.Machine.execSnkClose s
  | .encZero fmt sign => Sys2Proof.Machine.execEncZero fmt sign s
  | .encInf fmt sign => Sys2Proof.Machine.execEncInf fmt sign s
  | .encNan fmt => Sys2Proof.Machine.execEncNan fmt s
  | .encNum fmt sign exp sig => Sys2Proof.Machine.execEncNum fmt sign exp sig s
  | .decode fmt => Sys2Proof.Machine.execDecode fmt s

end Sys2Proof.Machine
end

