-- ==== Sys2Proof/Machine/HostMoves.lean ====
section
/-! DEFINITION. What each host move does (20_memory.md R57, 30_encoding.md R79, 70_reset_and_hazards.md R215,
R216).  Only a command has a response (R73). -/

namespace Sys2Proof.Machine

/-- Issue a command: the decoded command executes to completion; an illegal word ends with IllegalCommand
and changes nothing (R71, R76, R189, R194). -/
def issueCommand (r : Request) (s : State) : Host.Outcome State Fault Refusal :=
  match decodeRequest r with
  | .ok i => exec i s
  | .error _ => .next (takeException .illegal s)

/-- HOST.PUSH (R57, R79). -/
def pushBytes (bytes : List Byte) (s : State) : State := s.setSrcIn (s.srcIn ++ bytes)

/-- HOST.TAKE (R79). -/
def takeBytes (s : State) : State := s.setSnkOut []

/-- Remove `count` bytes of SNK_OUT from position `start` on (R57, log entry 14). -/
def removeBytes (start count : Nat) (s : State) : State :=
  s.setSnkOut (s.snkOut.take start ++ s.snkOut.drop (start + count))

/-- HOST.COPY (R79). -/
def copyBytes (s : State) : State := s.setSrcIn (s.srcIn ++ s.snkOut)

/-- The reset event (R215): the registers of a fresh Bit Source and Bit Sink, SRC.byte with the next free
value (log entry 4); the queues are not touched (R216). -/
def resetEvent (s : State) : State :=
  ((s.setSource ⟨Config.unspecifiedByte s.draws, 0⟩).setSink ⟨0x00#8, 0, false⟩).setDraws (s.draws + 1)

/-- One host move (R57). -/
def performMove (m : HostMove) (s : State) : Host.Outcome State Fault Refusal :=
  match m with
  | .command r => issueCommand r s
  | .push bytes => .next (pushBytes bytes s)
  | .take => .next (takeBytes s)
  | .remove start count => .next (removeBytes start count s)
  | .copy => .next (copyBytes s)
  | .reset => .next (resetEvent s)

end Sys2Proof.Machine
end

