-- ==== Sys2Proof/Machine/Step.lean ====
section
/-! DEFINITION. One step: the host's next move, performed to completion (00_scope.md R16, R17).  With no move to
come the block does nothing (R17, log entry 2). -/

namespace Sys2Proof.Machine

/-- One step of a run. -/
def step (s : State) : Host.Outcome State Fault Refusal :=
  match s.moves with
  | [] => .next s
  | m :: rest => performMove m (s.setMoves rest)

/-- `s` with the command of an opcode-table word as the host's next move (log entries 8 and 9). -/
def State.withFetchWord (s : State) (nbits w : Nat) : State :=
  s.setMoves (.command (tableRequest nbits w) :: s.moves)

end Sys2Proof.Machine
end

