-- ==== Sys2Proof/Safety.lean ====
section
/-! DEFINITION. The terms the claims use: the bits still in the source and the bits already in the sink (the
abstract view of 10_state.md R25 and 20_memory.md R50), the words of the wire format (30_encoding.md R60), the
real number an Exact Value denotes (R116), the invariant of every command boundary (10_state.md R22, R23),
and what reading or writing a number of bits leaves behind (40_bit_stream_io.md R99). -/

namespace Sys2Proof.Machine

/-- The `n` low bits of `v` in order of transmission, most significant first (R62). -/
def msbFirst (v n : Nat) : List Bool := (List.range n).map fun k => v.testBit (n - 1 - k)

/-- The eight bits of a byte, bit 7 first (20_memory.md R41). -/
def byteBits (b : Byte) : List Bool := msbFirst b.toNat 8

/-- The undelivered bits `SRC.byte[cnt-1], ..., SRC.byte[0]` (R25). -/
def BitSource.undelivered (r : BitSource) : List Bool := msbFirst r.byte.toNat r.cnt

/-- The pending bits `SNK.byte[7], ..., SNK.byte[8-cnt]` (R25). -/
def BitSink.pending (k : BitSink) : List Bool := (byteBits k.byte).take k.cnt

/-- Every bit the Bit Source can still deliver, in order of delivery (R50 (a)). -/
def State.sourceBits (s : State) : List Bool := s.src.undelivered ++ s.srcIn.flatMap byteBits

/-- Every bit in SNK_OUT and pending, in the order written (R50 (b)). -/
def State.sinkBits (s : State) : List Bool := s.snkOut.flatMap byteBits ++ s.snk.pending

/-- Between commands `SRC.cnt` is at most 7 (R22). -/
abbrev BitSource.Inv (r : BitSource) : Prop := r.cnt ≤ 7

/-- Between commands `SNK.cnt` is at most 7 and `SNK.byte[7-SNK.cnt:0] = 0` (R23); a closed sink holds no
pending bit (R93). -/
abbrev BitSink.Inv (k : BitSink) : Prop :=
  k.cnt ≤ 7 ∧ (∀ i, i < 8 - k.cnt → k.byte.getLsbD i = false) ∧ (k.closed = true → k.cnt = 0)

/-- The invariant of every command boundary (R22, R23). -/
abbrev State.Inv (s : State) : Prop := s.src.Inv ∧ s.snk.Inv

/-- The word `W = sign * 2^(E+M) + efield * 2^M + mant` of the wire format (R60). -/
def formatWord (E M : Nat) (sign : Bool) (efield mant : Nat) : Nat :=
  sign.toNat * 2 ^ (E + M) + efield * 2 ^ M + mant

/-- The `N = 1 + E + M` bits of a word in order of transmission (R60). -/
def wordBits (E M W : Nat) : List Bool := msbFirst W (1 + E + M)

/-- `sig * 2^exp`, the magnitude a Number denotes (R116). -/
def magnitude (exp : Int) (sig : Nat) : ℚ := (sig : ℚ) * 2 ^ exp

/-- The real number a finite Exact Value denotes (R116). -/
def realValue : ExactValue → Option ℚ
  | .zero _ => some 0
  | .number sign exp sig => some ((if sign then -1 else 1) * magnitude exp sig)
  | .infinity _ => none
  | .nan => none

/-- `t` is `s` after a command wrote exactly `bits` to the Bit Sink and responded OK, and did nothing else
(R125, R142): nothing is padded, the sink stays open, every other part of the state is as it was. -/
structure WroteBits (bits : List Bool) (s t : State) : Prop where
  bits_eq   : t.sinkBits = s.sinkBits ++ bits
  cnt       : t.snk.cnt = (s.snk.cnt + bits.length) % 8
  emitted   : t.snkOut.length = s.snkOut.length + (s.snk.cnt + bits.length) / 8
  kept      : s.snkOut <+: t.snkOut
  closed    : t.snk.closed = s.snk.closed
  sinkInv   : t.snk.Inv
  src       : t.src = s.src
  srcIn     : t.srcIn = s.srcIn
  moves     : t.moves = s.moves
  draws     : t.draws = s.draws
  responses : t.responses = s.responses ++ [.ok .nothing]

/-- How many bytes `n` bit reads pull when `c` bits are undelivered: `ceil(max(n - c, 0) / 8)` (R99). -/
def bytesPulled (n c : Nat) : Nat := (n - c + 7) / 8

/-- The state after `n` bits were delivered: the bytes pulled have left SRC_IN, SRC.byte is the last of them
(or as it was), and SRC.cnt counts what is left of it (R94, R99). -/
def State.afterReading (n : Nat) (s : State) : State :=
  let k := bytesPulled n s.src.cnt
  { s with
    src := ⟨(s.srcIn.take k).getLastD s.src.byte, s.src.cnt + 8 * k - n⟩
    srcIn := s.srcIn.drop k }

/-- Two states that differ at most in bits of SRC.byte that are already delivered: the same architectural
state (R21). -/
structure SameArchitecturalState (s t : State) : Prop where
  cnt       : s.src.cnt = t.src.cnt
  low       : ∀ i, i < s.src.cnt → s.src.byte.getLsbD i = t.src.byte.getLsbD i
  snk       : s.snk = t.snk
  srcIn     : s.srcIn = t.srcIn
  snkOut    : s.snkOut = t.snkOut
  moves     : s.moves = t.moves
  responses : s.responses = t.responses
  draws     : s.draws = t.draws

end Sys2Proof.Machine
end

