-- ==== Sys2Proof/Certificates/Slice0/Obligations.lean ====
section
/-! DEFINITION. The statements for the provers, written from the numbered rules of spec/.  Bits of the source
still to come and bits already in the sink are read through `sourceBits` and `sinkBits` (10_state.md R25,
20_memory.md R50); `WroteBits bits s t` and `afterReading n s` carry the frame of a command: every part of
the state they do not name is as before. -/

open Sys2Proof Sys2Proof.Machine

/-! ### Command words (30_encoding.md Part B) -/

/-- Decoding what the encoder makes of a command gives the command back, every operand at every value; and
a word that decodes to a command is the word the encoder makes of it.  The codes of R71 are the spec's own
decision D3. -/
def Obligations.DecodeEncodeAgree : Prop :=
  (∀ i : Instr, decodeRequest (encodeInstr i) = .ok i) ∧
  (∀ (r : Request) (i : Instr), decodeRequest r = .ok i → (encodeInstr i).cmd = r.cmd)

/-- Exactly 13 of the 256 command words decode to a command, whatever is on the ports; the other 243 are
rejected (R76, the spec's decision D3). -/
def Obligations.LegalCommandWords : Prop :=
  ∀ r : Request, (∃ i, decodeRequest r = .ok i) ↔
    r.cmd ∈ [0x10#8, 0x20#8, 0x21#8, 0x30#8, 0x40#8, 0x50#8, 0x51#8, 0x54#8, 0x55#8, 0x58#8, 0x5C#8,
      0x5D#8, 0x60#8]

/-- A command word selects at most one row of the opcode table (R71: the rows are disjoint; the spec's decision
D3). -/
def Obligations.OpcodeRowsDisjoint : Prop :=
  ∀ c : CmdWord, (opcodeRows.filter fun row => row.selects c).length ≤ 1

/-- A port the command does not use is ignored: the bit stream commands use no port, and every command but
ENC.NUM uses at most `fmt` (R72, the spec's decision D3). -/
def Obligations.UnusedPortsIgnored : Prop :=
  ∀ (c : CmdWord) (p q : Ports),
    (c ∈ [0x10#8, 0x20#8, 0x21#8, 0x30#8, 0x40#8] → decodeRequest ⟨c, p⟩ = decodeRequest ⟨c, q⟩) ∧
    (c ≠ 0x5C#8 → c ≠ 0x5D#8 → p.fmt = q.fmt → decodeRequest ⟨c, p⟩ = decodeRequest ⟨c, q⟩)

/-- Words written out from the patterns of R71 (the spec's decision D3) decode to the command they stand for. -/
def Obligations.CommandWordSamples : Prop :=
  ∀ (fmt : Descriptor) (e : Option Int) (g : Option Nat),
    decodeRequest ⟨0b00010000#8, ⟨fmt, e, g⟩⟩ = .ok .srcNext ∧
    decodeRequest ⟨0b00100001#8, ⟨fmt, e, g⟩⟩ = .ok (.snkWrite true) ∧
    decodeRequest ⟨0b01010101#8, ⟨fmt, e, g⟩⟩ = .ok (.encInf fmt true) ∧
    decodeRequest ⟨0b01011101#8, ⟨fmt, e, g⟩⟩ = .ok (.encNum fmt true e g) ∧
    decodeRequest ⟨0b01100000#8, ⟨fmt, e, g⟩⟩ = .ok (.decode fmt)

/-- The numbers of the statuses (R75), of the variant tags (R74), and the tag in `cmd[3:2]` of the ENC
commands (R70, R74); the spec's decision D3. -/
def Obligations.StatusAndTagCodes : Prop :=
  (∀ r : Result, (Response.ok r).status.code = 0#3) ∧
  (Response.error .argument).status.code = 1#3 ∧ (Response.error .state).status.code = 2#3 ∧
  (Response.error .io).status.code = 3#3 ∧ (Response.error .illegal).status.code = 4#3 ∧
  (∀ s, valueTag (.zero s) = 0b00#2) ∧ (∀ s, valueTag (.infinity s) = 0b01#2) ∧
  valueTag .nan = 0b10#2 ∧ (∀ s e g, valueTag (.number s e g) = 0b11#2) ∧
  (∀ (fmt : Descriptor) (v : ExactValue),
    (encodeInstr (encCommand fmt v)).cmd.extractLsb' 2 2 = valueTag v)

/-! ### The step: host moves, responses, reset -/

/-- When the host's next move is a command whose word decodes to `i`, the step is exec of `i` at the state
without that move (R16, R31; the spec's decision D1; the list of moves is the model's, log entry 1). -/
def Obligations.StepRunsDecodedCommand : Prop :=
  ∀ (s : State) (r : Request) (rest : List HostMove) (i : Instr),
    s.moves = .command r :: rest → decodeRequest r = .ok i → step s = exec i { s with moves := rest }

/-- An illegal command word is answered IllegalCommand and changes nothing: no state element, no byte of
SRC_IN or SNK_OUT (R76, R189; the spec's decision D3). -/
def Obligations.StepRejectsIllegalWord : Prop :=
  ∀ (s : State) (r : Request) (rest : List HostMove) (x : Reject),
    s.moves = .command r :: rest → decodeRequest r = .error x →
      step s = .next { s with moves := rest, responses := s.responses ++ [.error .illegal] }

/-- The host's moves on the queues (R57, R79; the spec's decision D4): push appends at the tail of SRC_IN,
take empties SNK_OUT, remove cuts bytes out of SNK_OUT (log entry 14), copy appends SNK_OUT to SRC_IN without
removing it.  None has a response, none touches the block.  With no move to come nothing happens (log
entry 2). -/
def Obligations.StepHostQueueMoves : Prop :=
  ∀ (s : State) (rest : List HostMove),
    (∀ bytes, s.moves = .push bytes :: rest →
      step s = .next { s with moves := rest, srcIn := s.srcIn ++ bytes }) ∧
    (s.moves = .take :: rest → step s = .next { s with moves := rest, snkOut := [] }) ∧
    (∀ start count, s.moves = .remove start count :: rest →
      step s = .next { s with
        moves := rest, snkOut := s.snkOut.take start ++ s.snkOut.drop (start + count) }) ∧
    (s.moves = .copy :: rest →
      step s = .next { s with moves := rest, srcIn := s.srcIn ++ s.snkOut }) ∧
    (s.moves = [] → step s = .next s)

/-- The reset event sets SRC.cnt = 0, SNK.cnt = 0, SNK.byte = 0x00 and SNK.closed = 0, says nothing of
SRC.byte, has no response and leaves SRC_IN and SNK_OUT as they are (R215, R216; the spec's decisions D6 and
D4; SRC.byte and the counter of free values are the model's, log entry 4). -/
def Obligations.StepResetEvent : Prop :=
  ∀ (s : State) (rest : List HostMove), s.moves = .reset :: rest →
    ∃ byte, step s = .next { s with
      src := ⟨byte, 0⟩, snk := ⟨0x00#8, 0, false⟩, moves := rest, draws := s.draws + 1 }

/-- The values R36 gives for reset (the spec's decision D6); the queues (log entry 5), the responses
(log entry 6) and the host's moves (log entry 9) are empty. -/
def Obligations.ResetStateValues : Prop :=
  State.reset.src.cnt = 0 ∧ State.reset.snk.byte = 0x00#8 ∧ State.reset.snk.cnt = 0 ∧
  State.reset.snk.closed = false ∧ State.reset.srcIn = [] ∧ State.reset.snkOut = [] ∧
  State.reset.moves = [] ∧ State.reset.responses = []

/-- The machine never stops: every step, of every state, answers a next state (R17, R19; the spec's decision
D1; log entries 2 and 16). -/
def Obligations.StepNeverStops : Prop :=
  ∀ s : State, ∃ t, step s = .next t

/-- Every command produces exactly one response, which joins the end of the sequence; every other move
produces none; a move is used up by its step (R73, R17; the spec's decisions D1 and D3; the two lists are the
model's, log entries 1 and 6). -/
def Obligations.OneResponsePerCommand : Prop :=
  ∀ (s t : State) (m : HostMove) (rest : List HostMove), s.moves = m :: rest → step s = .next t →
    t.moves = rest ∧
    ((∃ r, m = .command r) → ∃ a, t.responses = s.responses ++ [a]) ∧
    ((∀ r, m ≠ .command r) → t.responses = s.responses)

/-! ### Invariants and whole-machine rules -/

/-- The invariant of R22 and R23 holds at reset (the spec's decisions D5 and D6). -/
def Obligations.InvariantHoldsAtReset : Prop :=
  State.reset.Inv

/-- Every step keeps it: at every command boundary SRC.cnt and SNK.cnt are at most 7, the unwritten positions
of SNK.byte are 0, and a closed sink holds no pending bit (R22, R23, R93; the byte and counter are the spec's
decision D5, the reset event its decision D6). -/
def Obligations.StepKeepsInvariant : Prop :=
  ∀ s t : State, s.Inv → step s = .next t → t.Inv

/-- SNK.closed becomes 1 in no step but a command 0x40 (SNK.CLOSE) answered OK, and 0 in no step but a reset
event; such a command and such an event do set and clear it (R24, R215; the word is the spec's decision D3,
the reset event its decision D6). -/
def Obligations.ClosedFlagOnlyByCloseAndReset : Prop :=
  ∀ s t : State, step s = .next t →
    (s.snk.closed = false → t.snk.closed = true →
      ∃ p rest, s.moves = .command ⟨0x40#8, p⟩ :: rest ∧ t.responses = s.responses ++ [.ok .nothing]) ∧
    (s.snk.closed = true → t.snk.closed = false → ∃ rest, s.moves = .reset :: rest) ∧
    (∀ p rest, s.moves = .command ⟨0x40#8, p⟩ :: rest → t.snk.closed = true) ∧
    (∀ rest, s.moves = .reset :: rest → t.snk.closed = false)

/-- Reads only remove bytes from the head of SRC_IN and writes only append to SNK_OUT: what a command leaves
of SRC_IN is a tail of it, and what was in SNK_OUT stays, unchanged, in front (R46). -/
def Obligations.CommandsConsumeAndAppend : Prop :=
  ∀ (i : Instr) (s t : State), exec i s = .next t → t.srcIn <:+ s.srcIn ∧ s.snkOut <+: t.snkOut

/-- The streams do not communicate: SRC.NEXT and DECODE leave the Bit Sink and SNK_OUT as they are, and every
other command leaves the Bit Source and SRC_IN as they are (R53, R190; the spec's decision D4).  No command
touches the host's moves still to come or the counter of free values (the model's own fields, log entries 1
and 4). -/
def Obligations.CommandTouchesOneStream : Prop :=
  ∀ (i : Instr) (s t : State), exec i s = .next t →
    ((i = .srcNext ∨ ∃ fmt, i = .decode fmt) → t.snk = s.snk ∧ t.snkOut = s.snkOut) ∧
    ((i ≠ .srcNext ∧ ∀ fmt, i ≠ .decode fmt) → t.src = s.src ∧ t.srcIn = s.srcIn) ∧
    t.moves = s.moves ∧ t.draws = s.draws

/-- Bits of SRC.byte that are already delivered have no effect on any response or later state: two states
that differ only in them step to states that differ only in them (R21; the byte and counter are the spec's
decision D5). -/
def Obligations.DeliveredBitsUnobservable : Prop :=
  ∀ s t s' t' : State, SameArchitecturalState s t → step s = .next s' → step t = .next t' →
    SameArchitecturalState s' t'

/-! ### Exceptions (60_exceptions.md) -/

/-- ArgumentError is raised exactly for operands that fail their check (E < 2, M < 1, bias absent, exponent or
significand absent, significand 0), whatever the state, so before StateError and IOError; nothing changes
(R186, R194, R195; the place of the check and the significand 0 are the spec's decisions D10 and D9). -/
def Obligations.ArgumentErrorExactly : Prop :=
  ∀ (i : Instr) (s : State),
    (¬ i.WellFormed → exec i s = .next { s with responses := s.responses ++ [.error .argument] }) ∧
    (i.WellFormed → ∃ t a, exec i s = .next t ∧ t.responses = s.responses ++ [a] ∧
      a ≠ .error .argument)

/-- Every command with valid operands that uses the Bit Sink is answered StateError on a closed sink, and
nothing changes (R187; for SNK.FLUSH and SNK.CLOSE the spec's decision D7). -/
def Obligations.ClosedSinkStateError : Prop :=
  ∀ (i : Instr) (s : State), i.WellFormed → (i ≠ .srcNext ∧ ∀ fmt, i ≠ .decode fmt) →
    s.snk.closed = true → exec i s = .next { s with responses := s.responses ++ [.error .state] }

/-- Which command can end with which exception (R190), and that every exception leaves the state as it was
but for IOError of DECODE, which leaves SRC.cnt = 0 and SRC_IN empty and everything else as it was
(R195; the spec's decision D15). -/
def Obligations.ExceptionsArePrecise : Prop :=
  ∀ (i : Instr) (s t : State) (e : ErrorStatus), exec i s = .next t →
    t.responses = s.responses ++ [.error e] →
      (e = .argument ∧ ¬ i.WellFormed ∧ t = { s with responses := t.responses }) ∨
      (e = .state ∧ s.snk.closed = true ∧ (i ≠ .srcNext ∧ ∀ fmt, i ≠ .decode fmt) ∧
        t = { s with responses := t.responses }) ∨
      (e = .io ∧ i = .srcNext ∧ t = { s with responses := t.responses }) ∨
      (e = .io ∧ (∃ fmt, i = .decode fmt) ∧ t.src.cnt = 0 ∧ t.srcIn = [] ∧
        t = { s with src := t.src, srcIn := [], responses := t.responses })

/-- IOError is the answer exactly when a bit is requested and none is left (R188): SRC.NEXT on an exhausted
source, and DECODE with a valid descriptor when fewer than `N` bits are available; no other command is ever
answered so (R190). -/
def Obligations.IOErrorExactly : Prop :=
  ∀ (i : Instr) (s t : State), exec i s = .next t →
    (t.responses = s.responses ++ [.error .io] ↔
      (i = .srcNext ∧ s.src.cnt = 0 ∧ s.srcIn = []) ∨
      ∃ (E M : Nat) (bias : Int), 2 ≤ E ∧ 1 ≤ M ∧ i = .decode ⟨E, M, some bias⟩ ∧
        s.src.cnt + 8 * s.srcIn.length < 1 + E + M)

/-! ### Bit Stream I/O (40_bit_stream_io.md) -/

/-- SRC.NEXT (R90): with undelivered bits it delivers `SRC.byte[SRC.cnt-1]`; with none it pulls the head byte
of SRC_IN and delivers bit 7; with none and SRC_IN empty it is answered IOError and nothing changes.  The
command word is the spec's decision D3, the byte and counter its decision D5. -/
def Obligations.SrcNextDeliversNextBit : Prop :=
  (∀ p, decodeRequest ⟨0x10#8, p⟩ = .ok .srcNext) ∧
  ∀ s : State,
    (∀ n, s.src.cnt = n + 1 → exec .srcNext s = .next { s with
      src := ⟨s.src.byte, n⟩
      responses := s.responses ++ [.ok (.bit (s.src.byte.getLsbD n))] }) ∧
    (∀ b rest, s.src.cnt = 0 → s.srcIn = b :: rest → exec .srcNext s = .next { s with
      src := ⟨b, 7⟩
      srcIn := rest
      responses := s.responses ++ [.ok (.bit (b.getLsbD 7))] }) ∧
    (s.src.cnt = 0 → s.srcIn = [] → exec .srcNext s = .next { s with
      responses := s.responses ++ [.error .io] })

/-- The `n` bits the next `n` SRC.NEXT commands deliver are the first `n` bits of the source: bytes in queue
order, each most significant bit first (R41, R42, R50); one bit per command. -/
def Obligations.SourceDeliversInOrder : Prop :=
  ∀ (s : State) (b : Bool) (bits : List Bool), s.sourceBits = b :: bits →
    exec .srcNext s = .next { s.afterReading 1 with responses := s.responses ++ [.ok (.bit b)] } ∧
    (s.afterReading 1).sourceBits = bits

/-- ReadBits(n) (R96, R99).  With `n <= c + 8 * length(SRC_IN)` it succeeds: its value is that of the first
`n` bits of the source, most significant first, which leave the source; `ceil(max(n - c, 0) / 8)` bytes leave
the head of SRC_IN, and `SRC.cnt = (c - n) mod 8`.  With fewer bits it raises IOError, every bit that was there
is consumed, SRC.cnt = 0 and SRC_IN is empty.  Nothing else changes in either case. -/
def Obligations.ReadingAdvancesCursor : Prop :=
  ∀ (s : State) (n : Nat), s.src.Inv →
    (n ≤ s.src.cnt + 8 * s.srcIn.length → ∃ v, v < 2 ^ n ∧ msbFirst v n = s.sourceBits.take n ∧
      readBits n s = .done v (s.afterReading n) ∧
      (s.afterReading n).sourceBits = s.sourceBits.drop n ∧
      (s.afterReading n).srcIn = s.srcIn.drop ((n - s.src.cnt + 7) / 8) ∧
      ((s.afterReading n).src.cnt : Int) = ((s.src.cnt : Int) - n) % 8) ∧
    (s.src.cnt + 8 * s.srcIn.length < n → readBits n s = .raised .io { s with
      src := ⟨s.srcIn.getLastD s.src.byte, 0⟩
      srcIn := [] })

/-- SNK.WRITE b (R91): on an open sink the bit goes to position `7 - SNK.cnt` of the pending byte; the eighth
bit emits the byte and clears it; on a closed sink StateError and nothing changes.  The command word is the
spec's decision D3, the byte and counter its decision D5. -/
def Obligations.SnkWriteAppendsBit : Prop :=
  (∀ p, decodeRequest ⟨0x20#8, p⟩ = .ok (.snkWrite false)) ∧
  (∀ p, decodeRequest ⟨0x21#8, p⟩ = .ok (.snkWrite true)) ∧
  ∀ (b : Bool) (s : State),
    (s.snk.closed = true →
      exec (.snkWrite b) s = .next { s with responses := s.responses ++ [.error .state] }) ∧
    (s.snk.closed = false → s.snk.cnt ≤ 7 → ∃ byte : Byte,
      (∀ i, i < 8 → byte.getLsbD i = if i = 7 - s.snk.cnt then b else s.snk.byte.getLsbD i) ∧
      (s.snk.cnt < 7 → exec (.snkWrite b) s = .next { s with
        snk := ⟨byte, s.snk.cnt + 1, false⟩
        responses := s.responses ++ [.ok .nothing] }) ∧
      (s.snk.cnt = 7 → exec (.snkWrite b) s = .next { s with
        snk := ⟨0x00#8, 0, false⟩
        snkOut := s.snkOut ++ [byte]
        responses := s.responses ++ [.ok .nothing] }))

/-- Bits reach the output in the order written (R50 (b)): SNK.WRITE adds its bit behind all bits written
before, and does nothing else (R91, R99). -/
def Obligations.SinkKeepsBitOrder : Prop :=
  ∀ (b : Bool) (s : State), s.Inv → s.snk.closed = false →
    ∃ t, exec (.snkWrite b) s = .next t ∧ WroteBits [b] s t

/-- SNK.FLUSH on an open sink (R92): a partially filled pending byte is emitted as it stands and cleared; with
nothing pending nothing is emitted; the sink stays open (a closed sink: ClosedSinkStateError). -/
def Obligations.SnkFlushEmitsPendingByte : Prop :=
  ∀ s : State, s.snk.closed = false →
    (0 < s.snk.cnt → exec .snkFlush s = .next { s with
      snk := ⟨0x00#8, 0, false⟩
      snkOut := s.snkOut ++ [s.snk.byte]
      responses := s.responses ++ [.ok .nothing] }) ∧
    (s.snk.cnt = 0 → exec .snkFlush s = .next { s with
      responses := s.responses ++ [.ok .nothing] })

/-- SNK.CLOSE on an open sink (R93): as SNK.FLUSH, and SNK.closed becomes 1 (a closed sink:
ClosedSinkStateError). -/
def Obligations.SnkCloseEmitsAndCloses : Prop :=
  ∀ s : State, s.snk.closed = false →
    (0 < s.snk.cnt → exec .snkClose s = .next { s with
      snk := ⟨0x00#8, 0, true⟩
      snkOut := s.snkOut ++ [s.snk.byte]
      responses := s.responses ++ [.ok .nothing] }) ∧
    (s.snk.cnt = 0 → exec .snkClose s = .next { s with
      snk := ⟨s.snk.byte, 0, true⟩
      responses := s.responses ++ [.ok .nothing] })

/-- SNK.FLUSH and SNK.CLOSE complete the pending byte with zero bits: `8 - SNK.cnt` of them when bits are
pending, none otherwise; afterwards nothing is pending, so every bit written is in SNK_OUT (R98, R223,
R52). -/
def Obligations.FlushPadsWithZeros : Prop :=
  ∀ (i : Instr) (s : State), i = .snkFlush ∨ i = .snkClose → s.Inv → s.snk.closed = false →
    ∃ t, exec i s = .next t ∧
      t.sinkBits = s.sinkBits ++ List.replicate ((8 - s.snk.cnt) % 8) false ∧
      t.snkOut.flatMap byteBits = t.sinkBits ∧ t.snk.cnt = 0

/-! ### The encoder (42_encoder.md) -/

/-- ENC.ZERO fmt, s (R126): sign bit, `E` zero bits, `M` zero bits; ArgumentError for an invalid descriptor,
StateError on a closed sink, both leaving everything unchanged.  The command word is the spec's decision D3,
the place of the check its decision D10. -/
def Obligations.EncZeroWritesZeroPattern : Prop :=
  (∀ p : Ports, decodeRequest ⟨0x50#8, p⟩ = .ok (.encZero p.fmt false) ∧
    decodeRequest ⟨0x51#8, p⟩ = .ok (.encZero p.fmt true)) ∧
  (∀ fmt sign s, fmt.wellFormed = false →
    exec (.encZero fmt sign) s = .next { s with responses := s.responses ++ [.error .argument] }) ∧
  ∀ (E M : Nat) (bias : Int) (sign : Bool) (s : State), 2 ≤ E → 1 ≤ M →
    (s.snk.closed = true → exec (.encZero ⟨E, M, some bias⟩ sign) s
      = .next { s with responses := s.responses ++ [.error .state] }) ∧
    (s.Inv → s.snk.closed = false → ∃ t, exec (.encZero ⟨E, M, some bias⟩ sign) s = .next t ∧
      WroteBits (sign :: (List.replicate E false ++ List.replicate M false)) s t ∧
      wordBits E M (sign.toNat * 2 ^ (E + M))
        = sign :: (List.replicate E false ++ List.replicate M false))

/-- ENC.INF fmt, s (R127): sign bit, `E` one bits, `M` zero bits; errors and decisions as for ENC.ZERO. -/
def Obligations.EncInfWritesInfinityPattern : Prop :=
  (∀ p : Ports, decodeRequest ⟨0x54#8, p⟩ = .ok (.encInf p.fmt false) ∧
    decodeRequest ⟨0x55#8, p⟩ = .ok (.encInf p.fmt true)) ∧
  (∀ fmt sign s, fmt.wellFormed = false →
    exec (.encInf fmt sign) s = .next { s with responses := s.responses ++ [.error .argument] }) ∧
  ∀ (E M : Nat) (bias : Int) (sign : Bool) (s : State), 2 ≤ E → 1 ≤ M →
    (s.snk.closed = true → exec (.encInf ⟨E, M, some bias⟩ sign) s
      = .next { s with responses := s.responses ++ [.error .state] }) ∧
    (s.Inv → s.snk.closed = false → ∃ t, exec (.encInf ⟨E, M, some bias⟩ sign) s = .next t ∧
      WroteBits (sign :: (List.replicate E true ++ List.replicate M false)) s t ∧
      wordBits E M (sign.toNat * 2 ^ (E + M) + (2 ^ E - 1) * 2 ^ M)
        = sign :: (List.replicate E true ++ List.replicate M false))

/-- ENC.NAN fmt (R128, R65): a zero sign bit, `E` one bits, a one bit and `M - 1` zero bits, the one canonical
NaN, `W = (2^E - 1) * 2^M + 2^(M-1)`; errors and decisions as for ENC.ZERO. -/
def Obligations.EncNanWritesCanonicalNan : Prop :=
  (∀ p : Ports, decodeRequest ⟨0x58#8, p⟩ = .ok (.encNan p.fmt)) ∧
  (∀ fmt s, fmt.wellFormed = false →
    exec (.encNan fmt) s = .next { s with responses := s.responses ++ [.error .argument] }) ∧
  ∀ (E M : Nat) (bias : Int) (s : State), 2 ≤ E → 1 ≤ M →
    (s.snk.closed = true → exec (.encNan ⟨E, M, some bias⟩) s
      = .next { s with responses := s.responses ++ [.error .state] }) ∧
    (s.Inv → s.snk.closed = false → ∃ t, exec (.encNan ⟨E, M, some bias⟩) s = .next t ∧
      WroteBits (false :: (List.replicate E true ++ true :: List.replicate (M - 1) false)) s t ∧
      wordBits E M ((2 ^ E - 1) * 2 ^ M + 2 ^ (M - 1))
        = false :: (List.replicate E true ++ true :: List.replicate (M - 1) false))

/-- Every ENC command with valid operands on an open sink writes exactly `N = 1 + E + M` bits, in the order
sign, exponent field, mantissa field, and responds OK: it does not flush, close or pad (R125). -/
def Obligations.EncWritesExactlyOneWord : Prop :=
  ∀ (i : Instr) (E M : Nat) (bias : Int) (s : State),
    ((∃ sign, i = .encZero ⟨E, M, some bias⟩ sign) ∨ (∃ sign, i = .encInf ⟨E, M, some bias⟩ sign) ∨
      i = .encNan ⟨E, M, some bias⟩ ∨
      ∃ sign exp sig, i = .encNum ⟨E, M, some bias⟩ sign exp sig) →
    i.WellFormed → s.Inv → s.snk.closed = false →
      ∃ t sign efield mant, exec i s = .next t ∧ efield < 2 ^ E ∧ mant < 2 ^ M ∧
        WroteBits (sign :: (msbFirst efield E ++ msbFirst mant M)) s t

/-- ENC.NUM reports nothing: with valid operands on an open sink its response is OK with no result, whether
the value was written exactly, rounded, truncated, replaced by infinity or replaced by zero (R139). -/
def Obligations.EncNumReportsNothing : Prop :=
  ∀ (fmt : Descriptor) (sign : Bool) (exp : Option Int) (sig : Option Nat) (s : State),
    (Instr.encNum fmt sign exp sig).WellFormed → s.snk.closed = false →
      ∃ t, exec (.encNum fmt sign exp sig) s = .next t ∧
        t.responses = s.responses ++ [.ok .nothing] ∧ t.snk.closed = false ∧
        t.src = s.src ∧ t.srcIn = s.srcIn ∧ t.moves = s.moves ∧ t.draws = s.draws

/-- The integer primitives of the rules: `bitLength(n)` is the least `k` with `n < 2^k`, and for `n > 0` the
leading set bit of `n` is bit `bitLength(n) - 1` (R11); `tz(n)`, for `n > 0`, is the largest `t` such that
`2^t` divides `n` (R13). -/
def Obligations.IntegerPrimitives : Prop :=
  (∀ n k : Nat, bitLength n ≤ k ↔ n < 2 ^ k) ∧
  (∀ n : Nat, 0 < n → n.testBit (bitLength n - 1) = true ∧
    ∀ i, bitLength n - 1 < i → n.testBit i = false) ∧
  (∀ n t : Nat, 0 < n → (2 ^ t ∣ n ↔ t ≤ trailingZeros n))

/-- The rounding step, pass by pass (R130): a significand of at most `M + 1` bits passes through unchanged; a
longer one is halved, the dropped bit added, the exponent increased by one, and the step taken again.  That
the test is made again after each halving is the spec's decision D13. -/
def Obligations.RoundHalvesUntilItFits : Prop :=
  ∀ (M sig : Nat) (exp : Int),
    (bitLength sig ≤ M + 1 → roundSignificand M sig exp = (sig, exp)) ∧
    (M + 1 < bitLength sig →
      roundSignificand M sig exp = roundSignificand M (sig / 2 + sig % 2) (exp + 1))

/-- The rounding step in closed form (R137): with `n = bitLength(sig) > M + 1`, `k0 = n - (M + 1)` and
`c = ceil(sig / 2^k0)`, `2^M <= c <= 2^(M+1)`, and the result is `(c, exp + k0)` if `c < 2^(M+1)` and
`(2^M, exp + k0 + 1)` if `c = 2^(M+1)`. -/
def Obligations.RoundClosedForm : Prop :=
  ∀ (M sig : Nat) (exp : Int), M + 1 < bitLength sig →
    let k0 := bitLength sig - (M + 1)
    let c := (sig + 2 ^ k0 - 1) / 2 ^ k0
    2 ^ M ≤ c ∧ c ≤ 2 ^ (M + 1) ∧
    (c < 2 ^ (M + 1) → roundSignificand M sig exp = (c, exp + k0)) ∧
    (c = 2 ^ (M + 1) → roundSignificand M sig exp = (2 ^ M, exp + k0 + 1))

/-- ENC.NUM, total underflow (R132): when `ef <= 0` and `M + ef <= 0` the magnitude lies below the smallest
subnormal `2^(1 - bias - M)` and the bits written are those of `Zero(sign)`; it is not rounded up. -/
def Obligations.EncNumUnderflowsToZero : Prop :=
  ∀ (E M sig : Nat) (bias exp : Int) (sign : Bool) (s : State), 2 ≤ E → 1 ≤ M → 0 < sig →
    s.Inv → s.snk.closed = false →
    let r := roundSignificand M sig exp
    let ef := r.2 + bias + ((bitLength r.1 : Int) - 1)
    ef ≤ 0 → M + ef ≤ 0 →
      magnitude r.2 r.1 < magnitude (1 - bias - M) 1 ∧
      ∃ t, exec (.encNum ⟨E, M, some bias⟩ sign (some exp) (some sig)) s = .next t ∧
        WroteBits (sign :: (List.replicate E false ++ List.replicate M false)) s t

/-- ENC.NUM, subnormal (R133): when `ef <= 0` and `M + ef >= 1`, sign bit, `E` zero bits, then the bits of the
significand from index `L - ef` downward, `M` of them; bits that do not fit are dropped (the spec's decision
D14). -/
def Obligations.EncNumWritesSubnormal : Prop :=
  ∀ (E M sig : Nat) (bias exp : Int) (sign : Bool) (s : State), 2 ≤ E → 1 ≤ M → 0 < sig →
    s.Inv → s.snk.closed = false →
    let r := roundSignificand M sig exp
    let L := (bitLength r.1 : Int) - 1
    let ef := r.2 + bias + L
    ef ≤ 0 → 1 ≤ M + ef →
      ∃ t, exec (.encNum ⟨E, M, some bias⟩ sign (some exp) (some sig)) s = .next t ∧
        WroteBits (sign :: (List.replicate E false ++
          (List.range M).map fun k : Nat => bitAt r.1 (L - ef - k))) s t

/-- ENC.NUM, overflow (R134): when `ef > 0` and the bit length of `ef` exceeds `E`, or equals `E` with all
bits set, the bits written are those of `Infinity(sign)`; the two conditions together are exactly
`ef >= 2^E - 1`. -/
def Obligations.EncNumOverflowsToInfinity : Prop :=
  ∀ (E M sig : Nat) (bias exp : Int) (sign : Bool) (s : State), 2 ≤ E → 1 ≤ M → 0 < sig →
    s.Inv → s.snk.closed = false →
    let r := roundSignificand M sig exp
    let ef := r.2 + bias + ((bitLength r.1 : Int) - 1)
    0 < ef →
      (E < bitLength ef.toNat ∨ (bitLength ef.toNat = E ∧ ∀ i, i < E → ef.toNat.testBit i = true)
        ↔ 2 ^ E - 1 ≤ ef) ∧
      (2 ^ E - 1 ≤ ef → ∃ t, exec (.encNum ⟨E, M, some bias⟩ sign (some exp) (some sig)) s = .next t ∧
        WroteBits (sign :: (List.replicate E true ++ List.replicate M false)) s t)

/-- ENC.NUM, normal (R135): when `1 <= ef <= 2^E - 2`, sign bit, `ef` over `E` bits, then the bits of the
significand from index `L - 1` downward, zero-padded on the right to `M` bits; as a number the field is
`(sig - 2^L) * 2^(M - L)`. -/
def Obligations.EncNumWritesNormal : Prop :=
  ∀ (E M sig : Nat) (bias exp : Int) (sign : Bool) (s : State), 2 ≤ E → 1 ≤ M → 0 < sig →
    s.Inv → s.snk.closed = false →
    let r := roundSignificand M sig exp
    let L := bitLength r.1 - 1
    let ef := r.2 + bias + L
    1 ≤ ef → ef ≤ 2 ^ E - 2 →
      L ≤ M ∧
      ((List.range M).map fun k : Nat => bitAt r.1 ((L : Int) - 1 - k))
        = msbFirst ((r.1 - 2 ^ L) * 2 ^ (M - L)) M ∧
      ∃ t, exec (.encNum ⟨E, M, some bias⟩ sign (some exp) (some sig)) s = .next t ∧
        WroteBits (sign :: (msbFirst ef.toNat E ++
          (List.range M).map fun k : Nat => bitAt r.1 ((L : Int) - 1 - k))) s t

/-- The word ENC.NUM writes, in closed form (R136). -/
def Obligations.EncNumClosedForm : Prop :=
  ∀ (E M sig : Nat) (bias exp : Int) (sign : Bool) (s : State), 2 ≤ E → 1 ≤ M → 0 < sig →
    s.Inv → s.snk.closed = false →
    let r := roundSignificand M sig exp
    let L := bitLength r.1 - 1
    let ef := r.2 + bias + L
    ∃ t W, exec (.encNum ⟨E, M, some bias⟩ sign (some exp) (some sig)) s = .next t ∧
      WroteBits (wordBits E M W) s t ∧
      (ef ≤ -M → W = sign.toNat * 2 ^ (E + M)) ∧
      (-M < ef → ef ≤ 0 → W = sign.toNat * 2 ^ (E + M) + ⌊magnitude (M - 1 + ef - L) r.1⌋₊) ∧
      (1 ≤ ef → ef ≤ 2 ^ E - 2 →
        W = sign.toNat * 2 ^ (E + M) + ef.toNat * 2 ^ M + (r.1 - 2 ^ L) * 2 ^ (M - L)) ∧
      (2 ^ E - 1 ≤ ef → W = sign.toNat * 2 ^ (E + M) + (2 ^ E - 1) * 2 ^ M)

/-- The bits ENC.NUM writes depend only on the format, the sign and the real number (R140): two Numbers of one
sign that denote the same number have the same effect from every state that meets the invariant. -/
def Obligations.EncNumDependsOnValueOnly : Prop :=
  ∀ (fmt : Descriptor) (sign : Bool) (exp exp' : Int) (sig sig' : Nat) (s : State),
    fmt.wellFormed = true → 0 < sig → 0 < sig' → s.Inv → magnitude exp sig = magnitude exp' sig' →
      exec (.encNum fmt sign (some exp) (some sig)) s = exec (.encNum fmt sign (some exp') (some sig')) s

/-- The encoder is monotone (R145): for one format and sign, a larger magnitude never yields a smaller word. -/
def Obligations.EncNumMonotone : Prop :=
  ∀ (E M sig sig' : Nat) (bias exp exp' : Int) (sign : Bool) (s : State), 2 ≤ E → 1 ≤ M →
    0 < sig → 0 < sig' → s.Inv → s.snk.closed = false → magnitude exp sig ≤ magnitude exp' sig' →
      ∃ t t' W W', W ≤ W' ∧ W' < 2 ^ (1 + E + M) ∧
        exec (.encNum ⟨E, M, some bias⟩ sign (some exp) (some sig)) s = .next t ∧
        WroteBits (wordBits E M W) s t ∧
        exec (.encNum ⟨E, M, some bias⟩ sign (some exp') (some sig')) s = .next t' ∧
        WroteBits (wordBits E M W') s t'

/-- A value that starts on a byte boundary in a format of whole bytes appears in SNK_OUT as the big-endian
bytes of its word (R63, R42): from an open sink with nothing pending, each ENC command with valid operands
appends exactly the `n` bytes of the word its rule gives (R126, R127, R128, R136), most significant byte
first, leaves nothing pending and changes nothing else. -/
def Obligations.EncodedBytesAreBigEndian : Prop :=
  ∀ (E M n : Nat) (bias : Int) (s : State), 2 ≤ E → 1 ≤ M → 1 + E + M = 8 * n →
    s.Inv → s.snk.closed = false → s.snk.cnt = 0 →
    let fmt : Descriptor := ⟨E, M, some bias⟩
    let emitting (W : Nat) : State := { s with
      snk := ⟨0x00#8, 0, false⟩
      snkOut := s.snkOut ++ (List.range n).map fun k => BitVec.ofNat 8 (W / 2 ^ (8 * (n - 1 - k)))
      responses := s.responses ++ [.ok .nothing] }
    (∀ sign : Bool, exec (.encZero fmt sign) s = .next (emitting (sign.toNat * 2 ^ (E + M)))) ∧
    (∀ sign : Bool, exec (.encInf fmt sign) s
      = .next (emitting (sign.toNat * 2 ^ (E + M) + (2 ^ E - 1) * 2 ^ M))) ∧
    exec (.encNan fmt) s = .next (emitting ((2 ^ E - 1) * 2 ^ M + 2 ^ (M - 1))) ∧
    ∀ (sign : Bool) (exp : Int) (sig : Nat), 0 < sig →
      let i : Instr := .encNum fmt sign (some exp) (some sig)
      let r := roundSignificand M sig exp
      let L := bitLength r.1 - 1
      let ef := r.2 + bias + L
      (ef ≤ -M → exec i s = .next (emitting (sign.toNat * 2 ^ (E + M)))) ∧
      (-M < ef → ef ≤ 0 → exec i s
        = .next (emitting (sign.toNat * 2 ^ (E + M) + ⌊magnitude (M - 1 + ef - L) r.1⌋₊))) ∧
      (1 ≤ ef → ef ≤ 2 ^ E - 2 → exec i s = .next (emitting
        (sign.toNat * 2 ^ (E + M) + ef.toNat * 2 ^ M + (r.1 - 2 ^ L) * 2 ^ (M - L)))) ∧
      (2 ^ E - 1 ≤ ef → exec i s
        = .next (emitting (sign.toNat * 2 ^ (E + M) + (2 ^ E - 1) * 2 ^ M)))

/-! ### The decoder (43_decoder.md) -/

/-- DECODE, exponent field all ones (R163): all `M` mantissa bits are read in every case, and the answer is
`Infinity(sign)` when they are all 0 and `NaN` when one is 1; the `N` bits are consumed, the rest is as
before. -/
def Obligations.DecodeInfinityOrNan : Prop :=
  ∀ (E M m : Nat) (bias : Int) (sign : Bool) (s : State) (rest : List Bool), 2 ≤ E → 1 ≤ M →
    m < 2 ^ M →
    s.sourceBits = sign :: (List.replicate E true ++ msbFirst m M) ++ rest →
      exec (.decode ⟨E, M, some bias⟩) s = .next { s.afterReading (1 + E + M) with
        responses := s.responses ++ [.ok (.value (if m = 0 then .infinity sign else .nan))] }

/-- DECODE, zero (R165): exponent field and mantissa 0 give `Zero(sign)`, the sign kept. -/
def Obligations.DecodeZero : Prop :=
  ∀ (E M : Nat) (bias : Int) (sign : Bool) (s : State) (rest : List Bool), 2 ≤ E → 1 ≤ M →
    s.sourceBits = sign :: (List.replicate E false ++ List.replicate M false) ++ rest →
      exec (.decode ⟨E, M, some bias⟩) s = .next { s.afterReading (1 + E + M) with
        responses := s.responses ++ [.ok (.value (.zero sign))] }

/-- DECODE, subnormal (R166): exponent field 0 and mantissa `m = g * 2^t` with `g` odd give
`Number(sign, 1 - bias - M + t, g)`, which denotes `m * 2^(1 - bias - M)`. -/
def Obligations.DecodeSubnormal : Prop :=
  ∀ (E M g t : Nat) (bias : Int) (sign : Bool) (s : State) (rest : List Bool), 2 ≤ E → 1 ≤ M →
    g % 2 = 1 → g * 2 ^ t < 2 ^ M →
    s.sourceBits = sign :: (List.replicate E false ++ msbFirst (g * 2 ^ t) M) ++ rest →
      exec (.decode ⟨E, M, some bias⟩) s = .next { s.afterReading (1 + E + M) with
        responses := s.responses ++ [.ok (.value (.number sign (1 - bias - M + t) g))] } ∧
      magnitude (1 - bias - M + t) g = magnitude (1 - bias - M) (g * 2 ^ t)

/-- DECODE, normal (R167): exponent field `f` with `1 <= f <= 2^E - 2` and `m + 2^M = g * 2^t` with `g` odd
give `Number(sign, f - bias - (bitLength(g) - 1), g)`, whose exponent equals `f - bias - M + t` and which
denotes `(2^M + m) * 2^(f - bias - M)`. -/
def Obligations.DecodeNormal : Prop :=
  ∀ (E M f m g t : Nat) (bias : Int) (sign : Bool) (s : State) (rest : List Bool), 2 ≤ E → 1 ≤ M →
    1 ≤ f → f ≤ 2 ^ E - 2 → m < 2 ^ M → m + 2 ^ M = g * 2 ^ t → g % 2 = 1 →
    s.sourceBits = sign :: (msbFirst f E ++ msbFirst m M) ++ rest →
      exec (.decode ⟨E, M, some bias⟩) s = .next { s.afterReading (1 + E + M) with
        responses := s.responses ++ [.ok (.value (.number sign (f - bias - ((bitLength g : Int) - 1)) g))] } ∧
      (f : Int) - bias - ((bitLength g : Int) - 1) = f - bias - M + t ∧
      magnitude (f - bias - M + t) g = magnitude (f - bias - M) (2 ^ M + m)

/-- DECODE consumes exactly `N = 1 + E + M` bits whatever it answers (R169): with at least `N` bits in the
source it is answered OK with a value, and the next bit delivered is the one behind the value. -/
def Obligations.DecodeConsumesExactlyN : Prop :=
  ∀ (E M : Nat) (bias : Int) (s : State), 2 ≤ E → 1 ≤ M → 1 + E + M ≤ s.sourceBits.length →
    ∃ v, exec (.decode ⟨E, M, some bias⟩) s = .next { s.afterReading (1 + E + M) with
        responses := s.responses ++ [.ok (.value v)] } ∧
      (s.afterReading (1 + E + M)).sourceBits = s.sourceBits.drop (1 + E + M)

/-- DECODE with fewer than `N` bits available is answered IOError with no value; every bit that was available
is consumed: SRC.cnt = 0 and SRC_IN is empty (R170, R226). -/
def Obligations.DecodeShortInput : Prop :=
  ∀ (E M : Nat) (bias : Int) (s : State), 2 ≤ E → 1 ≤ M →
    s.src.cnt + 8 * s.srcIn.length < 1 + E + M →
      exec (.decode ⟨E, M, some bias⟩) s = .next { s with
        src := ⟨s.srcIn.getLastD s.src.byte, 0⟩
        srcIn := []
        responses := s.responses ++ [.error .io] }

/-- Every Number DECODE returns is canonical: its significand is odd, so never 0 (R168). -/
def Obligations.DecodeReturnsCanonicalNumbers : Prop :=
  ∀ (fmt : Descriptor) (s t : State) (sign : Bool) (e : Int) (g : Nat),
    exec (.decode fmt) s = .next t → t.responses = s.responses ++ [.ok (.value (.number sign e g))] →
      g % 2 = 1

/-- The range of a Number that DECODE returns (R176). -/
def Obligations.DecodeResultRange : Prop :=
  ∀ (E M : Nat) (bias : Int) (s t : State) (sign : Bool) (e : Int) (g : Nat), 2 ≤ E → 1 ≤ M →
    exec (.decode ⟨E, M, some bias⟩) s = .next t →
    t.responses = s.responses ++ [.ok (.value (.number sign e g))] →
      1 ≤ g ∧ g < 2 ^ (M + 1) ∧ 1 - bias - M ≤ e ∧ e ≤ 2 ^ E - 2 - bias ∧
      magnitude (1 - bias - M) 1 ≤ magnitude e g ∧
      magnitude e g ≤ magnitude (2 ^ E - 2 - bias - M) (2 ^ (M + 1) - 1)

/-- DECODE is lossless (R173): the value denotes exactly the real number that the pattern's class assigns to
it (R64), and two patterns that are not NaNs and give the same value are the same pattern. -/
def Obligations.DecodeIsLossless : Prop :=
  ∀ (E M : Nat) (bias : Int), 2 ≤ E → 1 ≤ M →
    (∀ (s t : State) (sign : Bool) (f m : Nat) (rest : List Bool) (v : ExactValue), f < 2 ^ E → m < 2 ^ M →
      s.sourceBits = wordBits E M (formatWord E M sign f m) ++ rest →
      exec (.decode ⟨E, M, some bias⟩) s = .next t → t.responses = s.responses ++ [.ok (.value v)] →
        (f = 0 → realValue v = some ((if sign then -1 else 1) * magnitude (1 - bias - M) m)) ∧
        (1 ≤ f → f ≤ 2 ^ E - 2 →
          realValue v = some ((if sign then -1 else 1) * magnitude (f - bias - M) (2 ^ M + m))) ∧
        (f = 2 ^ E - 1 → realValue v = none)) ∧
    (∀ (s t s' t' : State) (W W' : Nat) (rest rest' : List Bool) (v : ExactValue),
      W < 2 ^ (1 + E + M) → W' < 2 ^ (1 + E + M) →
      s.sourceBits = wordBits E M W ++ rest → s'.sourceBits = wordBits E M W' ++ rest' →
      exec (.decode ⟨E, M, some bias⟩) s = .next t → t.responses = s.responses ++ [.ok (.value v)] →
      exec (.decode ⟨E, M, some bias⟩) s' = .next t' → t'.responses = s'.responses ++ [.ok (.value v)] →
      v ≠ .nan → W = W')

/-- DECODE depends on nothing but the descriptor, the `N` bits it reads and how many bits are available
(R175): from two states whose sources agree in the first `N` bits (so that both run short or neither does)
it gives the same response, and leaves no trace but the advance of the source cursor by the same number of
bits. -/
def Obligations.DecodeDependsOnBitsReadOnly : Prop :=
  ∀ (fmt : Descriptor) (s t : State),
    s.sourceBits.take (1 + fmt.elen.toNat + fmt.mlen.toNat)
      = t.sourceBits.take (1 + fmt.elen.toNat + fmt.mlen.toNat) →
    ∃ n a, n ≤ 1 + fmt.elen.toNat + fmt.mlen.toNat ∧
      exec (.decode fmt) s = .next { s.afterReading n with responses := s.responses ++ [a] } ∧
      exec (.decode fmt) t = .next { t.afterReading n with responses := t.responses ++ [a] }

/-! ### Decoding and encoding together -/

/-- Re-encoding a decoded value reproduces the bits, except that every NaN pattern collapses to the one
canonical NaN (R171, R172): for every valid descriptor and every pattern `W` of `N` bits at the head of the
source, DECODE answers a value `v`, and the ENC command for `v` writes `W` to any open sink, or, when `W` is a
NaN pattern, `(2^E - 1) * 2^M + 2^(M-1)`. -/
def Obligations.ReencodingReproducesBits : Prop :=
  ∀ (E M : Nat) (bias : Int) (sign : Bool) (f m : Nat) (s u : State) (rest : List Bool), 2 ≤ E → 1 ≤ M →
    f < 2 ^ E → m < 2 ^ M → s.sourceBits = wordBits E M (formatWord E M sign f m) ++ rest →
    u.Inv → u.snk.closed = false →
      ∃ v t, exec (.decode ⟨E, M, some bias⟩) s = .next { s.afterReading (1 + E + M) with
          responses := s.responses ++ [.ok (.value v)] } ∧
        exec (encCommand ⟨E, M, some bias⟩ v) u = .next t ∧
        WroteBits (wordBits E M
          (if f = 2 ^ E - 1 ∧ m ≠ 0 then (2 ^ E - 1) * 2 ^ M + 2 ^ (M - 1)
           else formatWord E M sign f m)) u t

/-- The round trip of a representable Number (R144, R123, 90_conflicts.md C3): when `Number(sign, exp, sig)` is
exactly representable and canonical, DECODE of the bits ENC.NUM writes for it gives it back. -/
def Obligations.RepresentableRoundTrip : Prop :=
  ∀ (E M sig : Nat) (bias exp : Int) (sign : Bool) (s : State), 2 ≤ E → 1 ≤ M → sig % 2 = 1 →
    s.Inv → s.snk.closed = false →
    let L := (bitLength sig : Int) - 1
    let ef := exp + bias + L
    (L ≤ M ∧ 1 ≤ ef ∧ ef ≤ 2 ^ E - 2 ∨ ef ≤ 0 ∧ L - ef ≤ M - 1) →
      ∃ t bits, exec (.encNum ⟨E, M, some bias⟩ sign (some exp) (some sig)) s = .next t ∧
        WroteBits bits s t ∧
        ∀ (u : State) (rest : List Bool), u.sourceBits = bits ++ rest →
          exec (.decode ⟨E, M, some bias⟩) u = .next { u.afterReading (1 + E + M) with
            responses := u.responses ++ [.ok (.value (.number sign exp sig))] }
end

