-- ==== Sys2Proof/Laws/Bits.lean ====
section
/-! SUPPORT. The integer primitives bitLength, bit and tz, and sequences of bits in order of transmission. -/

namespace Sys2Proof.Machine

/-! ### bitLength (R11) -/

@[simp] theorem bitLength_zero : bitLength 0 = 0 := rfl

theorem bitLength_pos {n : Nat} (h : 0 < n) : 0 < bitLength n := by
  simp [bitLength, Nat.ne_of_gt h]

theorem lt_two_pow_bitLength (n : Nat) : n < 2 ^ bitLength n := by
  unfold bitLength
  split
  · subst_vars; simp
  · exact Nat.lt_log2_self

theorem two_pow_le_of_bitLength {n : Nat} (h : 0 < n) : 2 ^ (bitLength n - 1) ≤ n := by
  have hn : n ≠ 0 := Nat.ne_of_gt h
  simpa [bitLength, hn] using Nat.log2_self_le hn

/-- `bitLength(n)` is the least `k` with `n < 2^k` (R11). -/
theorem bitLength_le_iff (n k : Nat) : bitLength n ≤ k ↔ n < 2 ^ k := by
  constructor
  · exact fun h => (lt_two_pow_bitLength n).trans_le (Nat.pow_le_pow_right (by norm_num) h)
  · intro h
    rcases Nat.eq_zero_or_pos n with rfl | hn
    · simp
    · by_contra hk
      have h1 : 2 ^ k ≤ 2 ^ (bitLength n - 1) := Nat.pow_le_pow_right (by norm_num) (by omega)
      exact absurd (h1.trans (two_pow_le_of_bitLength hn)) (by omega)

theorem lt_bitLength_iff (n k : Nat) : k < bitLength n ↔ 2 ^ k ≤ n := by
  have := bitLength_le_iff n k
  omega

/-- A number in `[2^k, 2^(k+1))` has bit length `k + 1`. -/
theorem bitLength_eq {n k : Nat} (h1 : 2 ^ k ≤ n) (h2 : n < 2 ^ (k + 1)) : bitLength n = k + 1 := by
  have := (bitLength_le_iff n (k + 1)).2 h2
  have := (lt_bitLength_iff n k).2 h1
  omega

theorem bitLength_mul_two_pow {n : Nat} (h : 0 < n) (t : Nat) :
    bitLength (n * 2 ^ t) = bitLength n + t := by
  have hb := bitLength_pos h
  have := bitLength_eq (n := n * 2 ^ t) (k := bitLength n - 1 + t)
    (by rw [pow_add]; exact Nat.mul_le_mul_right _ (two_pow_le_of_bitLength h))
    (by
      have : bitLength n - 1 + t + 1 = bitLength n + t := by omega
      rw [this, pow_add]
      exact Nat.mul_lt_mul_of_pos_right (lt_two_pow_bitLength n) (by positivity))
  omega

/-! ### tz (R13) -/

theorem countTrailingZeros_spec : ∀ (fuel n : Nat), 0 < n → n < 2 ^ fuel →
    2 ^ countTrailingZeros fuel n ∣ n ∧ n / 2 ^ countTrailingZeros fuel n % 2 = 1
  | 0, n, h, hn => by simp at hn; omega
  | fuel + 1, n, h, hn => by
    unfold countTrailingZeros
    split
    · rename_i he
      obtain ⟨hd, ho⟩ := countTrailingZeros_spec fuel (n / 2) (by omega) (by rw [pow_succ] at hn; omega)
      rw [pow_succ, Nat.mul_comm, ← Nat.div_div_eq_div_mul]
      refine ⟨?_, ho⟩
      obtain ⟨k, hk⟩ := hd
      exact ⟨k, by rw [Nat.mul_assoc, ← hk]; omega⟩
    · simp; omega

/-- `n = g * 2^tz(n)` with `g = n >> tz(n)` odd (R13, R166). -/
theorem trailingZeros_spec {n : Nat} (h : 0 < n) :
    n >>> trailingZeros n * 2 ^ trailingZeros n = n ∧ n >>> trailingZeros n % 2 = 1 := by
  obtain ⟨hd, ho⟩ := countTrailingZeros_spec _ n h (lt_two_pow_bitLength n)
  rw [Nat.shiftRight_eq_div_pow]
  exact ⟨Nat.div_mul_cancel hd, ho⟩

/-- The odd part and the power of two of a number determine each other. -/
theorem odd_mul_two_pow_unique {g g' t t' : Nat} (hg : g % 2 = 1) (hg' : g' % 2 = 1)
    (h : g * 2 ^ t = g' * 2 ^ t') : g = g' ∧ t = t' := by
  induction t generalizing t' with
  | zero =>
    cases t' with
    | zero => simpa using h
    | succ t' => rw [pow_succ, ← Nat.mul_assoc, pow_zero] at h; omega
  | succ t ih =>
    cases t' with
    | zero => rw [pow_succ, ← Nat.mul_assoc, pow_zero] at h; omega
    | succ t' =>
      have := ih (t' := t') (by rw [pow_succ, pow_succ, ← Nat.mul_assoc, ← Nat.mul_assoc] at h; omega)
      omega

theorem trailingZeros_eq {g t : Nat} (hg : g % 2 = 1) :
    trailingZeros (g * 2 ^ t) = t ∧ (g * 2 ^ t) >>> t = g := by
  have hpos : 0 < g * 2 ^ t := Nat.mul_pos (by omega) (by positivity)
  obtain ⟨h1, h2⟩ := trailingZeros_spec hpos
  obtain ⟨h3, h4⟩ := odd_mul_two_pow_unique h2 hg h1
  exact ⟨h4, by rw [Nat.shiftRight_eq_div_pow, Nat.mul_div_cancel _ (by positivity)]⟩

/-! ### Sequences of bits -/

@[simp] theorem msbFirst_zero (v : Nat) : msbFirst v 0 = [] := rfl

@[simp] theorem msbFirst_length (v n : Nat) : (msbFirst v n).length = n := by simp [msbFirst]

theorem msbFirst_succ (v n : Nat) : msbFirst v (n + 1) = v.testBit n :: msbFirst v n := by
  simp only [msbFirst, List.range_succ_eq_map, List.map_cons, List.map_map]
  refine congrArg₂ _ (by simp) (List.map_congr_left fun k _ => ?_)
  simp only [Function.comp]
  congr 1
  omega

/-- The first bits of a word are its high bits. -/
theorem msbFirst_add (v m n : Nat) : msbFirst v (m + n) = msbFirst (v / 2 ^ n) m ++ msbFirst v n := by
  induction m with
  | zero => simp
  | succ m ih =>
    rw [Nat.add_right_comm, msbFirst_succ, ih, msbFirst_succ, List.cons_append]
    congr 1
    rw [Nat.testBit_div_two_pow, Nat.add_comm]

theorem msbFirst_eq_of_mod {v w n : Nat} (h : v % 2 ^ n = w % 2 ^ n) : msbFirst v n = msbFirst w n := by
  refine List.map_congr_left fun k hk => ?_
  have hk : n - 1 - k < n := by have := List.mem_range.1 hk; omega
  have := congrArg (fun x => Nat.testBit x (n - 1 - k)) h
  simpa [Nat.testBit_mod_two_pow, hk] using this

/-- A sequence of bits determines the number it stands for (R62). -/
theorem msbFirst_injective {v w n : Nat} (hv : v < 2 ^ n) (hw : w < 2 ^ n)
    (h : msbFirst v n = msbFirst w n) : v = w := by
  refine Nat.eq_of_testBit_eq fun i => ?_
  by_cases hi : i < n
  · have := congrArg (fun l => l[n - 1 - i]?) h
    simp only [msbFirst, List.getElem?_map] at this
    rw [List.getElem?_range (by omega)] at this
    have h2 : n - 1 - (n - 1 - i) = i := by omega
    simpa [h2] using this
  · have hle : 2 ^ n ≤ 2 ^ i := Nat.pow_le_pow_right (by norm_num) (by omega)
    rw [Nat.testBit_lt_two_pow (by omega), Nat.testBit_lt_two_pow (by omega)]

@[simp] theorem byteBits_length (b : Byte) : (byteBits b).length = 8 := by simp [byteBits]

theorem msbFirst_zeros (n : Nat) : msbFirst 0 n = List.replicate n false := by
  induction n with
  | zero => rfl
  | succ n ih => rw [msbFirst_succ, ih]; simp [List.replicate_succ]

theorem msbFirst_ones (n : Nat) : msbFirst (2 ^ n - 1) n = List.replicate n true := by
  refine List.eq_replicate_iff.2 ⟨by simp, fun b hb => ?_⟩
  obtain ⟨k, hk, rfl⟩ := List.mem_map.1 hb
  have := List.mem_range.1 hk
  simp [Nat.testBit_two_pow_sub_one]
  omega

/-- The fields of a word come out in the order sign, exponent, mantissa (R60, R61). -/
theorem wordBits_formatWord {E M efield mant : Nat} (sign : Bool) (he : efield < 2 ^ E) (hm : mant < 2 ^ M) :
    wordBits E M (formatWord E M sign efield mant)
      = sign :: (msbFirst efield E ++ msbFirst mant M) := by
  have hlow : (sign.toNat * 2 ^ (E + M) + efield * 2 ^ M + mant) / 2 ^ M = sign.toNat * 2 ^ E + efield := by
    rw [pow_add, ← Nat.mul_assoc, ← Nat.add_mul, Nat.mul_comm, Nat.mul_add_div (by positivity),
      Nat.div_eq_of_lt hm, Nat.add_zero]
  have hhigh : (sign.toNat * 2 ^ E + efield) / 2 ^ E = sign.toNat := by
    rw [Nat.mul_comm, Nat.mul_add_div (by positivity), Nat.div_eq_of_lt he, Nat.add_zero]
  rw [wordBits, formatWord, msbFirst_add, hlow, msbFirst_add, hhigh]
  have h1 : msbFirst sign.toNat 1 = [sign] := by cases sign <;> rfl
  have h2 : msbFirst (sign.toNat * 2 ^ E + efield) E = msbFirst efield E :=
    msbFirst_eq_of_mod (by rw [Nat.mul_comm, Nat.mul_add_mod])
  have h3 : msbFirst (sign.toNat * 2 ^ (E + M) + efield * 2 ^ M + mant) M = msbFirst mant M :=
    msbFirst_eq_of_mod (by
      rw [pow_add, ← Nat.mul_assoc, ← Nat.add_mul, Nat.mul_comm, Nat.mul_add_mod])
  rw [h1, h2, h3]
  simp

/-- The fields of a word are in range and determine it; every word has fields. -/
theorem formatWord_lt {E M efield mant : Nat} (sign : Bool) (he : efield < 2 ^ E) (hm : mant < 2 ^ M) :
    formatWord E M sign efield mant < 2 ^ (1 + E + M) := by
  have h1 : efield * 2 ^ M + mant < 2 ^ (E + M) := by
    rw [pow_add]
    calc efield * 2 ^ M + mant < efield * 2 ^ M + 2 ^ M := by omega
      _ = (efield + 1) * 2 ^ M := by ring
      _ ≤ 2 ^ E * 2 ^ M := Nat.mul_le_mul_right _ he
  have h2 : 2 ^ (1 + E + M) = 2 * 2 ^ (E + M) := by rw [Nat.add_assoc, pow_add]; rfl
  have h3 : sign.toNat * 2 ^ (E + M) ≤ 2 ^ (E + M) := by cases sign <;> simp
  rw [formatWord, h2]
  omega

theorem exists_formatWord {E M W : Nat} (h : W < 2 ^ (1 + E + M)) :
    ∃ sign efield mant, efield < 2 ^ E ∧ mant < 2 ^ M ∧ W = formatWord E M sign efield mant := by
  have h2 : 2 ^ (1 + E + M) = 2 ^ (E + M) * 2 := by rw [Nat.add_assoc, pow_add, Nat.mul_comm]; rfl
  have hq : W / 2 ^ (E + M) < 2 := Nat.div_lt_of_lt_mul (h2 ▸ h)
  refine ⟨decide (W / 2 ^ (E + M) = 1), W / 2 ^ M % 2 ^ E, W % 2 ^ M, Nat.mod_lt _ (by positivity),
    Nat.mod_lt _ (by positivity), ?_⟩
  have hs : (decide (W / 2 ^ (E + M) = 1)).toNat = W / 2 ^ (E + M) := by
    rcases Nat.le_one_iff_eq_zero_or_eq_one.1 (Nat.lt_succ_iff.1 hq) with h | h <;> simp [h]
  have h4 : W / 2 ^ (E + M) = W / 2 ^ M / 2 ^ E := by
    rw [Nat.div_div_eq_div_mul, ← pow_add, Nat.add_comm M E]
  have h5 := Nat.div_add_mod W (2 ^ M)
  have h6 := Nat.div_add_mod (W / 2 ^ M) (2 ^ E)
  rw [formatWord, hs, h4, pow_add]
  calc W = 2 ^ M * (W / 2 ^ M) + W % 2 ^ M := h5.symm
    _ = 2 ^ M * (2 ^ E * (W / 2 ^ M / 2 ^ E) + W / 2 ^ M % 2 ^ E) + W % 2 ^ M := by rw [h6]
    _ = _ := by ring

/-! ### setBit -/

theorem setBit_getLsbD {v : Byte} {i : Nat} (hi : i < 8) (b : Bool) (j : Nat) (hj : j < 8) :
    (setBit v i b).getLsbD j = if j = i then b else v.getLsbD j := by
  unfold setBit
  cases b <;> by_cases h : j = i <;> simp_all <;> omega

end Sys2Proof.Machine
end

