-- ==== Sys2Proof/Laws/State.lean ====
section
/-! SUPPORT. One lemma per field per named update of State, and the two rules of `Run.andThen`. -/

namespace Sys2Proof.Machine

@[simp] theorem State.setSource_src (s : State) (v : BitSource) : (s.setSource v).src = v := rfl
@[simp] theorem State.setSource_snk (s : State) (v : BitSource) : (s.setSource v).snk = s.snk := rfl
@[simp] theorem State.setSource_srcIn (s : State) (v : BitSource) : (s.setSource v).srcIn = s.srcIn := rfl
@[simp] theorem State.setSource_snkOut (s : State) (v : BitSource) : (s.setSource v).snkOut = s.snkOut := rfl
@[simp] theorem State.setSource_moves (s : State) (v : BitSource) : (s.setSource v).moves = s.moves := rfl
@[simp] theorem State.setSource_responses (s : State) (v : BitSource) : (s.setSource v).responses = s.responses := rfl
@[simp] theorem State.setSource_draws (s : State) (v : BitSource) : (s.setSource v).draws = s.draws := rfl

@[simp] theorem State.setSink_src (s : State) (v : BitSink) : (s.setSink v).src = s.src := rfl
@[simp] theorem State.setSink_snk (s : State) (v : BitSink) : (s.setSink v).snk = v := rfl
@[simp] theorem State.setSink_srcIn (s : State) (v : BitSink) : (s.setSink v).srcIn = s.srcIn := rfl
@[simp] theorem State.setSink_snkOut (s : State) (v : BitSink) : (s.setSink v).snkOut = s.snkOut := rfl
@[simp] theorem State.setSink_moves (s : State) (v : BitSink) : (s.setSink v).moves = s.moves := rfl
@[simp] theorem State.setSink_responses (s : State) (v : BitSink) : (s.setSink v).responses = s.responses := rfl
@[simp] theorem State.setSink_draws (s : State) (v : BitSink) : (s.setSink v).draws = s.draws := rfl

@[simp] theorem State.setSrcIn_src (s : State) (q : List Byte) : (s.setSrcIn q).src = s.src := rfl
@[simp] theorem State.setSrcIn_snk (s : State) (q : List Byte) : (s.setSrcIn q).snk = s.snk := rfl
@[simp] theorem State.setSrcIn_srcIn (s : State) (q : List Byte) : (s.setSrcIn q).srcIn = q := rfl
@[simp] theorem State.setSrcIn_snkOut (s : State) (q : List Byte) : (s.setSrcIn q).snkOut = s.snkOut := rfl
@[simp] theorem State.setSrcIn_moves (s : State) (q : List Byte) : (s.setSrcIn q).moves = s.moves := rfl
@[simp] theorem State.setSrcIn_responses (s : State) (q : List Byte) : (s.setSrcIn q).responses = s.responses := rfl
@[simp] theorem State.setSrcIn_draws (s : State) (q : List Byte) : (s.setSrcIn q).draws = s.draws := rfl

@[simp] theorem State.setSnkOut_src (s : State) (q : List Byte) : (s.setSnkOut q).src = s.src := rfl
@[simp] theorem State.setSnkOut_snk (s : State) (q : List Byte) : (s.setSnkOut q).snk = s.snk := rfl
@[simp] theorem State.setSnkOut_srcIn (s : State) (q : List Byte) : (s.setSnkOut q).srcIn = s.srcIn := rfl
@[simp] theorem State.setSnkOut_snkOut (s : State) (q : List Byte) : (s.setSnkOut q).snkOut = q := rfl
@[simp] theorem State.setSnkOut_moves (s : State) (q : List Byte) : (s.setSnkOut q).moves = s.moves := rfl
@[simp] theorem State.setSnkOut_responses (s : State) (q : List Byte) : (s.setSnkOut q).responses = s.responses := rfl
@[simp] theorem State.setSnkOut_draws (s : State) (q : List Byte) : (s.setSnkOut q).draws = s.draws := rfl

@[simp] theorem State.setMoves_src (s : State) (m : List HostMove) : (s.setMoves m).src = s.src := rfl
@[simp] theorem State.setMoves_snk (s : State) (m : List HostMove) : (s.setMoves m).snk = s.snk := rfl
@[simp] theorem State.setMoves_srcIn (s : State) (m : List HostMove) : (s.setMoves m).srcIn = s.srcIn := rfl
@[simp] theorem State.setMoves_snkOut (s : State) (m : List HostMove) : (s.setMoves m).snkOut = s.snkOut := rfl
@[simp] theorem State.setMoves_moves (s : State) (m : List HostMove) : (s.setMoves m).moves = m := rfl
@[simp] theorem State.setMoves_responses (s : State) (m : List HostMove) : (s.setMoves m).responses = s.responses := rfl
@[simp] theorem State.setMoves_draws (s : State) (m : List HostMove) : (s.setMoves m).draws = s.draws := rfl

@[simp] theorem State.setDraws_src (s : State) (n : Nat) : (s.setDraws n).src = s.src := rfl
@[simp] theorem State.setDraws_snk (s : State) (n : Nat) : (s.setDraws n).snk = s.snk := rfl
@[simp] theorem State.setDraws_srcIn (s : State) (n : Nat) : (s.setDraws n).srcIn = s.srcIn := rfl
@[simp] theorem State.setDraws_snkOut (s : State) (n : Nat) : (s.setDraws n).snkOut = s.snkOut := rfl
@[simp] theorem State.setDraws_moves (s : State) (n : Nat) : (s.setDraws n).moves = s.moves := rfl
@[simp] theorem State.setDraws_responses (s : State) (n : Nat) : (s.setDraws n).responses = s.responses := rfl
@[simp] theorem State.setDraws_draws (s : State) (n : Nat) : (s.setDraws n).draws = n := rfl

@[simp] theorem State.respond_src (s : State) (r : Response) : (s.respond r).src = s.src := rfl
@[simp] theorem State.respond_snk (s : State) (r : Response) : (s.respond r).snk = s.snk := rfl
@[simp] theorem State.respond_srcIn (s : State) (r : Response) : (s.respond r).srcIn = s.srcIn := rfl
@[simp] theorem State.respond_snkOut (s : State) (r : Response) : (s.respond r).snkOut = s.snkOut := rfl
@[simp] theorem State.respond_moves (s : State) (r : Response) : (s.respond r).moves = s.moves := rfl
@[simp] theorem State.respond_responses (s : State) (r : Response) : (s.respond r).responses = s.responses ++ [r] := rfl
@[simp] theorem State.respond_draws (s : State) (r : Response) : (s.respond r).draws = s.draws := rfl

@[simp] theorem memWrite_src (v : Byte) (s : State) : (memWrite v s).src = s.src := rfl
@[simp] theorem memWrite_snk (v : Byte) (s : State) : (memWrite v s).snk = s.snk := rfl
@[simp] theorem memWrite_srcIn (v : Byte) (s : State) : (memWrite v s).srcIn = s.srcIn := rfl
@[simp] theorem memWrite_snkOut (v : Byte) (s : State) : (memWrite v s).snkOut = s.snkOut ++ [v] := rfl
@[simp] theorem memWrite_moves (v : Byte) (s : State) : (memWrite v s).moves = s.moves := rfl
@[simp] theorem memWrite_responses (v : Byte) (s : State) : (memWrite v s).responses = s.responses := rfl
@[simp] theorem memWrite_draws (v : Byte) (s : State) : (memWrite v s).draws = s.draws := rfl

@[simp] theorem Run.andThen_done {α β : Type} (a : α) (s : State) (f : α → State → Run β) :
    (Run.done a s).andThen f = f a s := rfl

@[simp] theorem Run.andThen_raised {α β : Type} (e : ErrorStatus) (s : State) (f : α → State → Run β) :
    (Run.raised e s : Run α).andThen f = .raised e s := rfl

theorem Run.andThen_assoc {α β γ : Type} (r : Run α) (f : α → State → Run β) (g : β → State → Run γ) :
    (r.andThen f).andThen g = r.andThen fun a s => (f a s).andThen g := by
  cases r <;> rfl

end Sys2Proof.Machine
end

