-- ==== Sys2Proof/Laws/Source.lean ====
section
/-! SUPPORT. The Bit Source: what NextBit and the three reading loops do, said once over the sequence of bits
the source can still deliver (R94, R96, R99). -/

namespace Sys2Proof.Machine

/-! ### The view -/

@[simp] theorem State.sourceBits_length (s : State) :
    s.sourceBits.length = s.src.cnt + 8 * s.srcIn.length := by
  simp [State.sourceBits, BitSource.undelivered, List.length_flatMap, Nat.mul_comm]

/-- The source's bits depend on the source registers and SRC_IN only. -/
theorem State.sourceBits_congr {s t : State} (h1 : s.src = t.src) (h2 : s.srcIn = t.srcIn) :
    s.sourceBits = t.sourceBits := by
  simp [State.sourceBits, h1, h2]

/-! ### The cursor after `n` bits -/

@[simp] theorem State.afterReading_snk (n : Nat) (s : State) : (s.afterReading n).snk = s.snk := rfl
@[simp] theorem State.afterReading_snkOut (n : Nat) (s : State) : (s.afterReading n).snkOut = s.snkOut := rfl
@[simp] theorem State.afterReading_moves (n : Nat) (s : State) : (s.afterReading n).moves = s.moves := rfl
@[simp] theorem State.afterReading_draws (n : Nat) (s : State) : (s.afterReading n).draws = s.draws := rfl
@[simp] theorem State.afterReading_responses (n : Nat) (s : State) :
    (s.afterReading n).responses = s.responses := rfl
theorem State.afterReading_srcIn (n : Nat) (s : State) :
    (s.afterReading n).srcIn = s.srcIn.drop (bytesPulled n s.src.cnt) := rfl
theorem State.afterReading_cnt (n : Nat) (s : State) :
    (s.afterReading n).src.cnt = s.src.cnt + 8 * bytesPulled n s.src.cnt - n := rfl

@[simp] theorem State.afterReading_zero (s : State) : s.afterReading 0 = s := by
  have h : bytesPulled 0 s.src.cnt = 0 := by unfold bytesPulled; omega
  simp [State.afterReading, h]

theorem getLastD_append {α : Type} (l m : List α) (d : α) :
    (l ++ m).getLastD d = m.getLastD (l.getLastD d) := by
  cases m with
  | nil => simp
  | cons a m => simp [List.getLastD_eq_getLast?]

/-- Reading `m` bits and then `n` more is reading `m + n` bits. -/
theorem State.afterReading_add {m n : Nat} {s : State} (h : m + n ≤ s.src.cnt + 8 * s.srcIn.length) :
    (s.afterReading m).afterReading n = s.afterReading (m + n) := by
  have hk : bytesPulled (m + n) s.src.cnt
      = bytesPulled m s.src.cnt + bytesPulled n (s.src.cnt + 8 * bytesPulled m s.src.cnt - m) := by
    unfold bytesPulled; omega
  have hm : m ≤ s.src.cnt + 8 * bytesPulled m s.src.cnt := by unfold bytesPulled; omega
  rcases s with ⟨src, snk, srcIn, snkOut, moves, responses, draws⟩
  simp only [State.afterReading, State.mk.injEq, BitSource.mk.injEq, and_true, true_and] at *
  refine ⟨⟨?_, ?_⟩, ?_⟩
  · rw [hk, List.take_add, getLastD_append]
  · rw [hk]; omega
  · rw [hk, List.drop_drop]

/-! ### NextBit (R94) -/

/-- A source with no bit left raises IOError and changes nothing (R94, R188). -/
theorem nextBit_of_empty {s : State} (h : s.sourceBits = []) : nextBit s = .raised .io s := by
  have hl := congrArg List.length h
  simp at hl
  simp [nextBit, pullIfEmpty, memRead, hl.1, hl.2]

/-- Otherwise the first bit is delivered and the cursor moves by one (R94). -/
theorem nextBit_of_cons {s : State} {b : Bool} {rest : List Bool} (h : s.sourceBits = b :: rest) :
    nextBit s = .done b (s.afterReading 1) ∧ (s.afterReading 1).sourceBits = rest := by
  rcases s with ⟨⟨byte, cnt⟩, snk, srcIn, snkOut, moves, responses, draws⟩
  cases cnt with
  | succ n =>
    have hk : bytesPulled 1 (n + 1) = 0 := by unfold bytesPulled; omega
    simp only [State.sourceBits, BitSource.undelivered, msbFirst_succ, List.cons_append,
      List.cons.injEq] at h
    obtain ⟨rfl, rfl⟩ := h
    simp [nextBit, pullIfEmpty, deliverBit, State.afterReading, hk, State.setSource, BitVec.getLsbD,
      State.sourceBits, BitSource.undelivered]
  | zero =>
    have hk : bytesPulled 1 0 = 1 := rfl
    cases srcIn with
    | nil => simp [State.sourceBits, BitSource.undelivered] at h
    | cons B q =>
      simp only [State.sourceBits, BitSource.undelivered, msbFirst_zero, List.flatMap_cons, byteBits,
        List.nil_append, msbFirst_succ B.toNat 7, List.cons_append, List.cons.injEq] at h
      obtain ⟨rfl, rfl⟩ := h
      simp [nextBit, pullIfEmpty, memRead, deliverBit, State.afterReading, hk, State.setSource,
        State.setSrcIn, BitVec.getLsbD, State.sourceBits, BitSource.undelivered]

/-- Moving the cursor by `n` drops the first `n` bits (R99). -/
theorem State.sourceBits_afterReading {n : Nat} {s : State} (h : n ≤ s.src.cnt + 8 * s.srcIn.length) :
    (s.afterReading n).sourceBits = s.sourceBits.drop n := by
  induction n with
  | zero => simp
  | succ n ih =>
    have ih := ih (by omega)
    rw [← State.afterReading_add h]
    have hlen : ((s.afterReading n).sourceBits).length = s.src.cnt + 8 * s.srcIn.length - n := by
      rw [ih, List.length_drop, State.sourceBits_length]
    cases hb : (s.afterReading n).sourceBits with
    | nil => rw [hb] at hlen; simp at hlen; omega
    | cons b rest =>
      rw [(nextBit_of_cons hb).2, ← List.drop_drop, ← ih, hb]
      rfl

/-- What is left to read after `n` bits. -/
theorem State.available_afterReading {n : Nat} {s : State} (h : n ≤ s.src.cnt + 8 * s.srcIn.length) :
    (s.afterReading n).src.cnt + 8 * (s.afterReading n).srcIn.length
      = s.src.cnt + 8 * s.srcIn.length - n := by
  rw [← State.sourceBits_length, State.sourceBits_afterReading h, List.length_drop,
    State.sourceBits_length]

/-- Reading everything empties the source: `SRC.cnt = 0` and SRC_IN is empty (R170). -/
theorem State.afterReading_all (s : State) :
    (s.afterReading (s.src.cnt + 8 * s.srcIn.length)).src.cnt = 0 ∧
    (s.afterReading (s.src.cnt + 8 * s.srcIn.length)).srcIn = [] := by
  have hk : bytesPulled (s.src.cnt + 8 * s.srcIn.length) s.src.cnt = s.srcIn.length := by
    unfold bytesPulled; omega
  simp [State.afterReading_cnt, State.afterReading_srcIn, hk]

/-- SRC.cnt stays in 0..7 (R22). -/
theorem State.afterReading_inv {n : Nat} {s : State} (h : s.src.Inv) : (s.afterReading n).src.Inv := by
  simp only [BitSource.Inv, State.afterReading_cnt, bytesPulled] at *
  omega

/-! ### The reading loops -/

/-- Every reading loop of the rules is this one with its own update of the working values. -/
def readLoop {α : Type} (f : α → Bool → α) : (n : Nat) → α → State → Run α
  | 0, a, s => .done a s
  | n + 1, a, s => (nextBit s).andThen fun b s => readLoop f n (f a b) s

theorem readBitsFrom_eq_readLoop (n a : Nat) (s : State) :
    readBitsFrom n a s = readLoop (fun a b => 2 * a + b.toNat) n a s := by
  induction n generalizing a s with
  | zero => rfl
  | succ n ih => simp only [readBitsFrom, readLoop, ih]

theorem readExponent_eq_readLoop (n e : Nat) (all : Bool) (s : State) :
    readExponent n e all s
      = readLoop (fun (p : Nat × Bool) b => (2 * p.1 + b.toNat, p.2 && b)) n (e, all) s := by
  induction n generalizing e all s with
  | zero => rfl
  | succ n ih => simp only [readExponent, readLoop, ih]

theorem readAnyBit_eq_readLoop (n : Nat) (any : Bool) (s : State) :
    readAnyBit n any s = readLoop (fun a b => a || b) n any s := by
  induction n generalizing any s with
  | zero => rfl
  | succ n ih => simp only [readAnyBit, readLoop, ih]

/-- With enough bits a reading loop folds over the first `n` of them and moves the cursor by `n` (R99). -/
theorem readLoop_of_enough {α : Type} (f : α → Bool → α) (n : Nat) (a : α) (s : State)
    (h : n ≤ s.src.cnt + 8 * s.srcIn.length) :
    readLoop f n a s = .done ((s.sourceBits.take n).foldl f a) (s.afterReading n) := by
  induction n generalizing a s with
  | zero => simp [readLoop]
  | succ n ih =>
    cases hb : s.sourceBits with
    | nil => have := congrArg List.length hb; rw [State.sourceBits_length, List.length_nil] at this; omega
    | cons b rest =>
      obtain ⟨h1, h2⟩ := nextBit_of_cons hb
      have h3 := State.available_afterReading (n := 1) (s := s) (by omega)
      rw [readLoop, h1, Run.andThen_done, ih _ _ (by omega), h2, State.afterReading_add (by omega),
        Nat.add_comm 1 n]
      rfl

/-- With too few bits a reading loop consumes all of them and raises IOError (R99, R170). -/
theorem readLoop_of_short {α : Type} (f : α → Bool → α) (n : Nat) (a : α) (s : State)
    (h : s.src.cnt + 8 * s.srcIn.length < n) :
    readLoop f n a s = .raised .io (s.afterReading (s.src.cnt + 8 * s.srcIn.length)) := by
  induction n generalizing a s with
  | zero => omega
  | succ n ih =>
    cases hb : s.sourceBits with
    | nil =>
      have := congrArg List.length hb
      rw [State.sourceBits_length, List.length_nil] at this
      rw [readLoop, nextBit_of_empty hb, Run.andThen_raised, this, State.afterReading_zero]
    | cons b rest =>
      have hl := congrArg List.length hb
      simp only [State.sourceBits_length, List.length_cons] at hl
      have h3 := State.available_afterReading (n := 1) (s := s) (by omega)
      rw [readLoop, (nextBit_of_cons hb).1, Run.andThen_done, ih _ _ (by omega), h3,
        State.afterReading_add (by omega)]
      congr 2
      omega

/-! ### The folds over the bits of a field (R62, R162, R163) -/

theorem foldl_value (v n a : Nat) (hv : v < 2 ^ n) :
    (msbFirst v n).foldl (fun a b => 2 * a + b.toNat) a = a * 2 ^ n + v := by
  induction n generalizing a v with
  | zero => simp at hv; simp [hv]
  | succ n ih =>
    have hmod : msbFirst v n = msbFirst (v % 2 ^ n) n := msbFirst_eq_of_mod (by simp)
    have hb : (v.testBit n).toNat * 2 ^ n + v % 2 ^ n = v := by
      have h1 : (v.testBit n).toNat = v / 2 ^ n := by
        have : v / 2 ^ n < 2 := Nat.div_lt_of_lt_mul (by rw [← pow_succ]; exact hv)
        rw [Nat.toNat_testBit, Nat.mod_eq_of_lt this]
      rw [h1, Nat.mul_comm]
      exact Nat.div_add_mod v (2 ^ n)
    rw [msbFirst_succ, List.foldl_cons, hmod, ih _ _ (Nat.mod_lt _ (by positivity)), pow_succ]
    calc (2 * a + (v.testBit n).toNat) * 2 ^ n + v % 2 ^ n
        = a * (2 ^ n * 2) + ((v.testBit n).toNat * 2 ^ n + v % 2 ^ n) := by ring
      _ = _ := by rw [hb]

theorem foldl_and (l : List Bool) (a : Bool) : l.foldl (fun a b => a && b) a = (a && l.all id) := by
  induction l generalizing a with
  | nil => simp
  | cons b l ih => simp [ih, Bool.and_assoc]

theorem foldl_or (l : List Bool) (a : Bool) : l.foldl (fun a b => a || b) a = (a || l.any id) := by
  induction l generalizing a with
  | nil => simp
  | cons b l ih => simp [ih, Bool.or_assoc]

theorem foldl_pair (l : List Bool) (p : Nat × Bool) :
    l.foldl (fun (p : Nat × Bool) b => (2 * p.1 + b.toNat, p.2 && b)) p
      = (l.foldl (fun a b => 2 * a + b.toNat) p.1, l.foldl (fun a b => a && b) p.2) := by
  induction l generalizing p with
  | nil => rfl
  | cons b l ih => simp [ih]

/-- The tracked indicator is 1 exactly when the field is all ones (R162). -/
theorem all_msbFirst {v n : Nat} (hv : v < 2 ^ n) :
    (msbFirst v n).all id = decide (v = 2 ^ n - 1) := by
  rw [Bool.eq_iff_iff, decide_eq_true_iff]
  constructor
  · intro h
    refine msbFirst_injective hv (Nat.sub_lt (by positivity) (by norm_num)) ?_
    rw [msbFirst_ones]
    exact List.eq_replicate_iff.2 ⟨by simp, fun b hb => by simpa using List.all_eq_true.1 h b hb⟩
  · rintro rfl
    rw [msbFirst_ones]
    simp

/-- Some bit of the field is 1 exactly when the field is not 0 (R163). -/
theorem any_msbFirst {v n : Nat} (hv : v < 2 ^ n) : (msbFirst v n).any id = decide (v ≠ 0) := by
  rw [Bool.eq_iff_iff, decide_eq_true_iff]
  constructor
  · rintro h rfl
    rw [msbFirst_zeros] at h
    simp at h
  · intro h
    by_contra hc
    refine h (msbFirst_injective hv (by positivity) ?_)
    rw [msbFirst_zeros]
    exact List.eq_replicate_iff.2 ⟨by simp, fun b hb => by
      cases b
      · rfl
      · exact absurd (List.any_eq_true.2 ⟨true, hb, rfl⟩) hc⟩

/-- Any sequence of bits is the bits of the number it stands for (R62). -/
theorem exists_msbFirst (l : List Bool) : ∃ v, v < 2 ^ l.length ∧ l = msbFirst v l.length := by
  induction l with
  | nil => exact ⟨0, by simp, rfl⟩
  | cons b l ih =>
    obtain ⟨v, hv, hl⟩ := ih
    have hdiv : (b.toNat * 2 ^ l.length + v) / 2 ^ l.length = b.toNat := by
      rw [Nat.mul_comm, Nat.mul_add_div (by positivity), Nat.div_eq_of_lt hv, Nat.add_zero]
    refine ⟨b.toNat * 2 ^ l.length + v, ?_, ?_⟩
    · have : b.toNat ≤ 1 := by cases b <;> simp
      have := Nat.mul_le_mul_right (2 ^ l.length) this
      rw [List.length_cons, pow_succ]
      omega
    · rw [List.length_cons, Nat.add_comm l.length 1, msbFirst_add, hdiv]
      have h1 : msbFirst b.toNat 1 = [b] := by cases b <;> rfl
      rw [h1, msbFirst_eq_of_mod (w := v) (by rw [Nat.mul_comm, Nat.mul_add_mod]), ← hl]
      rfl

end Sys2Proof.Machine
end

