-- ==== Sys2Proof/Laws/Decoder.lean ====
section
/-! SUPPORT. The decoder: what DECODE answers for the fields of a pattern (R163 to R168), and what it leaves of
the source when the bits are there and when they run out (R169, R170). -/

namespace Sys2Proof.Machine

/-- The Exact Value of a pattern with the given fields (R163 to R168). -/
def patternValue (f : Format) (sign : Bool) (efield m : Nat) : ExactValue :=
  if efield = 2 ^ f.E - 1 then
    if m = 0 then .infinity sign else .nan
  else finiteValue f sign efield m

/-- A DECODE with enough bits answers the value of the fields it read, having moved the cursor by exactly
`N = 1 + E + M` (R160, R169). -/
theorem decodeValue_of_enough (f : Format) {s : State} {sign : Bool} {efield m : Nat} {rest : List Bool}
    (he : efield < 2 ^ f.E) (hm : m < 2 ^ f.M)
    (h : s.sourceBits = sign :: (msbFirst efield f.E ++ msbFirst m f.M) ++ rest) :
    decodeValue f s = .done (patternValue f sign efield m) (s.afterReading (1 + f.E + f.M)) := by
  have hlen := congrArg List.length h
  simp only [State.sourceBits_length, List.cons_append, List.length_cons, List.length_append,
    msbFirst_length] at hlen
  obtain ⟨h1, h2⟩ := nextBit_of_cons (s := s) (b := sign)
    (rest := msbFirst efield f.E ++ (msbFirst m f.M ++ rest)) (by rw [h]; simp)
  have ha1 := State.available_afterReading (n := 1) (s := s) (by omega)
  have hb1 : (s.afterReading 1).sourceBits.take f.E = msbFirst efield f.E := by
    rw [h2, List.take_left' (by simp)]
  have hs2 : (s.afterReading 1).afterReading f.E = s.afterReading (1 + f.E) :=
    State.afterReading_add (by omega)
  have ha2 := State.available_afterReading (n := 1 + f.E) (s := s) (by omega)
  have hb2 : (s.afterReading (1 + f.E)).sourceBits.take f.M = msbFirst m f.M := by
    rw [← hs2, State.sourceBits_afterReading (by omega), h2, List.drop_left' (by simp),
      List.take_left' (by simp)]
  have hs3 : (s.afterReading (1 + f.E)).afterReading f.M = s.afterReading (1 + f.E + f.M) :=
    State.afterReading_add (by omega)
  have hexp : readExponent f.E 0 true (s.afterReading 1)
      = .done (efield, decide (efield = 2 ^ f.E - 1)) (s.afterReading (1 + f.E)) := by
    rw [readExponent_eq_readLoop, readLoop_of_enough _ _ _ _ (by omega), hb1, hs2, foldl_pair,
      foldl_value _ _ _ he, foldl_and, all_msbFirst he]
    simp
  rw [decodeValue, h1, Run.andThen_done, hexp, Run.andThen_done]
  by_cases hall : efield = 2 ^ f.E - 1
  · rw [readAnyBit_eq_readLoop, readLoop_of_enough _ _ _ _ (by omega), hb2, hs3, foldl_or,
      any_msbFirst hm]
    by_cases hz : m = 0 <;> simp [patternValue, hall, hz]
  · rw [readBits, readBitsFrom_eq_readLoop, readLoop_of_enough _ _ _ _ (by omega), hb2, hs3,
      foldl_value _ _ _ hm]
    simp [patternValue, hall]

/-- A DECODE without enough bits consumes every bit there is and raises IOError (R170). -/
theorem decodeValue_of_short (f : Format) {s : State}
    (h : s.src.cnt + 8 * s.srcIn.length < 1 + f.E + f.M) :
    decodeValue f s = .raised .io (s.afterReading (s.src.cnt + 8 * s.srcIn.length)) := by
  cases hb : s.sourceBits with
  | nil =>
    have hl := congrArg List.length hb
    rw [State.sourceBits_length, List.length_nil] at hl
    rw [decodeValue, nextBit_of_empty hb, Run.andThen_raised, hl, State.afterReading_zero]
  | cons b rest =>
    have hl := congrArg List.length hb
    rw [State.sourceBits_length, List.length_cons] at hl
    have ha1 := State.available_afterReading (n := 1) (s := s) (by omega)
    rw [decodeValue, (nextBit_of_cons hb).1, Run.andThen_done, readExponent_eq_readLoop]
    by_cases hE : s.src.cnt + 8 * s.srcIn.length - 1 < f.E
    · rw [readLoop_of_short _ _ _ _ (by omega), ha1, Run.andThen_raised,
        State.afterReading_add (by omega)]
      congr 2
      omega
    · have ha2 := State.available_afterReading (n := 1 + f.E) (s := s) (by omega)
      rw [readLoop_of_enough _ _ _ _ (by omega), Run.andThen_done, State.afterReading_add (by omega)]
      have hmant : ∀ {α : Type} (g : α → Bool → α) (a : α),
          readLoop g f.M a (s.afterReading (1 + f.E))
            = .raised .io (s.afterReading (s.src.cnt + 8 * s.srcIn.length)) := by
        intro α g a
        rw [readLoop_of_short _ _ _ _ (by omega), ha2, State.afterReading_add (by omega)]
        congr 2
        omega
      rw [readAnyBit_eq_readLoop, readBits, readBitsFrom_eq_readLoop, hmant, hmant]
      simp

/-- Every run of DECODE is one of the two: enough bits with some fields, or too few (R169, R170). -/
theorem decodeValue_cases (f : Format) (s : State) :
    (∃ sign efield m rest, efield < 2 ^ f.E ∧ m < 2 ^ f.M ∧
      s.sourceBits = sign :: (msbFirst efield f.E ++ msbFirst m f.M) ++ rest ∧
      decodeValue f s = .done (patternValue f sign efield m) (s.afterReading (1 + f.E + f.M))) ∨
    (s.src.cnt + 8 * s.srcIn.length < 1 + f.E + f.M ∧
      decodeValue f s = .raised .io (s.afterReading (s.src.cnt + 8 * s.srcIn.length))) := by
  by_cases h : s.src.cnt + 8 * s.srcIn.length < 1 + f.E + f.M
  · exact .inr ⟨h, decodeValue_of_short f h⟩
  · obtain ⟨W, hW, hl⟩ := exists_msbFirst (s.sourceBits.take (1 + f.E + f.M))
    have hlen : (s.sourceBits.take (1 + f.E + f.M)).length = 1 + f.E + f.M := by
      rw [List.length_take, State.sourceBits_length]; omega
    rw [hlen] at hW hl
    obtain ⟨sign, efield, m, he, hm, rfl⟩ := exists_formatWord hW
    have hw := wordBits_formatWord sign he hm
    rw [wordBits] at hw
    have hs : s.sourceBits = sign :: (msbFirst efield f.E ++ msbFirst m f.M)
        ++ s.sourceBits.drop (1 + f.E + f.M) := by
      rw [← hw, ← hl, List.take_append_drop]
    exact .inl ⟨sign, efield, m, _, he, hm, hs, decodeValue_of_enough f he hm hs⟩

/-! ### The value (R165 to R168) -/

theorem finiteValue_zero (f : Format) (sign : Bool) : finiteValue f sign 0 0 = .zero sign := rfl

/-- A subnormal: `m = g * 2^t` with `g` odd gives `Number(s, 1 - bias - M + t, g)` (R166). -/
theorem finiteValue_subnormal (f : Format) (sign : Bool) {g : Nat} (hg : g % 2 = 1) (t : Nat) :
    finiteValue f sign 0 (g * 2 ^ t) = .number sign (1 - f.bias - f.M + t) g := by
  obtain ⟨h1, h2⟩ := trailingZeros_eq (t := t) hg
  have hne : g * 2 ^ t ≠ 0 := (Nat.mul_pos (by omega) (by positivity)).ne'
  rw [finiteValue, if_neg (by simp [hne]), if_pos rfl]
  simp only [h1, h2]

/-- A normal: `m + 2^M = g * 2^t` with `g` odd gives `Number(s, efield - bias - M + t, g)` (R167). -/
theorem finiteValue_normal (f : Format) (sign : Bool) {efield m g t : Nat} (he : efield ≠ 0)
    (hm : m < 2 ^ f.M) (hg : g % 2 = 1) (h : m + 2 ^ f.M = g * 2 ^ t) :
    finiteValue f sign efield m = .number sign (efield - f.bias - f.M + t) g ∧
      bitLength g + t = f.M + 1 := by
  obtain ⟨h1, h2⟩ := trailingZeros_eq (t := t) hg
  have hb := bitLength_mul_two_pow (n := g) (by omega) t
  rw [← h, bitLength_eq (k := f.M) (by omega) (by rw [pow_succ]; omega)] at hb
  refine ⟨?_, hb.symm⟩
  rw [finiteValue, if_neg (by simp [he]), if_neg he]
  simp only [h, h1, h2]
  congr 1
  omega

/-- Every positive number is an odd number times a power of two. -/
theorem exists_odd_mul_two_pow {n : Nat} (h : 0 < n) : ∃ g t, g % 2 = 1 ∧ n = g * 2 ^ t :=
  ⟨_, _, (trailingZeros_spec h).2, (trailingZeros_spec h).1.symm⟩

/-- Where a Number answer comes from: a subnormal or a normal pattern, whose integer is an odd number times a
power of two (R166, R167, R168). -/
theorem patternValue_number {f : Format} {sign sign' : Bool} {e m g : Nat} {x : Int} (hm : m < 2 ^ f.M)
   (h : patternValue f sign e m = .number sign' x g) :
   sign' = sign ∧ g % 2 = 1 ∧ e ≠ 2 ^ f.E - 1 ∧ ((e = 0 ∧ ∃ t : Nat, m = g * 2 ^ t ∧ x = 1 - f.bias - f.M + t) ∨
     (1 ≤ e ∧ ∃ t : Nat, m + 2 ^ f.M = g * 2 ^ t ∧ x = e - f.bias - f.M + t)) := by
  unfold patternValue at h
  split at h
  · split at h <;> simp at h
  · rename_i hne
    rcases Nat.eq_zero_or_pos e with rfl | hpos
    · rcases Nat.eq_zero_or_pos m with rfl | hmp
      · simp [finiteValue_zero] at h
      · obtain ⟨g', t, hg', rfl⟩ := exists_odd_mul_two_pow hmp
        rw [finiteValue_subnormal _ _ hg'] at h
        simp at h; obtain ⟨rfl, rfl, rfl⟩ := h
        exact ⟨rfl, hg', hne, .inl ⟨rfl, t, rfl, rfl⟩⟩
    · obtain ⟨g', t, hg', hmg⟩ := exists_odd_mul_two_pow (n := m + 2 ^ f.M) (by positivity)
      obtain ⟨h1, h2⟩ := finiteValue_normal f sign (show e ≠ 0 by omega) hm hg' hmg
      rw [h1] at h
      simp at h; obtain ⟨rfl, rfl, rfl⟩ := h
      exact ⟨rfl, hg', hne, .inr ⟨hpos, t, hmg, rfl⟩⟩

end Sys2Proof.Machine
end

