-- ==== Sys2Proof/Laws/Sink.lean ====
section
/-! SUPPORT. The Bit Sink: what WriteBit, the writing loops and FlushPending do, said once over the sequence
of bits written so far (R95, R97, R98, R99). -/

namespace Sys2Proof.Machine

/-- `t` is `s` after exactly `bits` were written to an open sink, and nothing else (R95, R99). -/
structure Written (bits : List Bool) (s t : State) : Prop where
  bits_eq   : t.sinkBits = s.sinkBits ++ bits
  cnt       : t.snk.cnt = (s.snk.cnt + bits.length) % 8
  emitted   : t.snkOut.length = s.snkOut.length + (s.snk.cnt + bits.length) / 8
  kept      : s.snkOut <+: t.snkOut
  closed    : t.snk.closed = s.snk.closed
  sinkInv   : t.snk.Inv
  src       : t.src = s.src
  srcIn     : t.srcIn = s.srcIn
  moves     : t.moves = s.moves
  draws     : t.draws = s.draws
  responses : t.responses = s.responses

theorem Written.refl {s : State} (h : s.snk.Inv) : Written [] s s where
  bits_eq := by simp
  cnt := by simpa using (Nat.mod_eq_of_lt (Nat.lt_succ_of_le h.1)).symm
  emitted := by have := h.1; simp; omega
  kept := List.prefix_rfl
  closed := rfl
  sinkInv := h
  src := rfl
  srcIn := rfl
  moves := rfl
  draws := rfl
  responses := rfl

theorem Written.trans {b c : List Bool} {s t u : State} (h : Written b s t) (k : Written c t u) :
    Written (b ++ c) s u where
  bits_eq := by rw [k.bits_eq, h.bits_eq, List.append_assoc]
  cnt := by rw [k.cnt, h.cnt, List.length_append]; omega
  emitted := by rw [k.emitted, h.emitted, h.cnt, List.length_append]; omega
  kept := h.kept.trans k.kept
  closed := k.closed.trans h.closed
  sinkInv := k.sinkInv
  src := k.src.trans h.src
  srcIn := k.srcIn.trans h.srcIn
  moves := k.moves.trans h.moves
  draws := k.draws.trans h.draws
  responses := k.responses.trans h.responses

/-- The OK response after the bits are written. -/
theorem Written.respond {b : List Bool} {s t : State} (h : Written b s t) :
    WroteBits b s (t.respond (.ok .nothing)) where
  bits_eq := h.bits_eq
  cnt := h.cnt
  emitted := h.emitted
  kept := h.kept
  closed := h.closed
  sinkInv := h.sinkInv
  src := h.src
  srcIn := h.srcIn
  moves := h.moves
  draws := h.draws
  responses := by rw [State.respond_responses, h.responses]

/-! ### WriteBit (R95) -/

/-- On a closed sink the first bit raises StateError and nothing has changed (R95, R187). -/
theorem writeBit_closed {b : Bool} {s : State} (h : s.snk.closed = true) : writeBit b s = .raised .state s := by
  simp [writeBit, requireOpen, h]

theorem byteBits_getElem? (v : Byte) {k : Nat} (hk : k < 8) : (byteBits v)[k]? = some (v.getLsbD (7 - k)) := by
  rw [byteBits, msbFirst, List.getElem?_map, List.getElem?_range hk]
  rfl

/-- The bit goes behind the pending ones (R95). -/
theorem take_byteBits_setBit (v : Byte) {c : Nat} (hc : c ≤ 7) (b : Bool) :
    (byteBits (setBit v (7 - c) b)).take (c + 1) = (byteBits v).take c ++ [b] := by
  refine List.ext_getElem? fun k => ?_
  rcases Nat.lt_trichotomy k c with hk | rfl | hk
  · rw [List.getElem?_take_of_lt (by omega), byteBits_getElem? _ (by omega),
      setBit_getLsbD (by omega) _ _ (by omega), List.getElem?_append_left (by simp; omega),
      List.getElem?_take_of_lt hk, byteBits_getElem? _ (by omega), if_neg (by omega)]
  · rw [List.getElem?_take_of_lt (by omega), byteBits_getElem? _ (by omega),
      setBit_getLsbD (by omega) _ _ (by omega), List.getElem?_append_right (by simp)]
    have : k - min k 8 = 0 := by omega
    simp [this]
  · rw [List.getElem?_eq_none (by simp; omega), List.getElem?_eq_none (by simp; omega)]

theorem writeBit_open {b : Bool} {s : State} (hi : s.snk.Inv) (ho : s.snk.closed = false) :
    ∃ t, writeBit b s = .done () t ∧ Written [b] s t := by
  rcases s with ⟨src, ⟨byte, cnt, closed⟩, srcIn, snkOut, moves, responses, draws⟩
  obtain ⟨hc, hz, hcl⟩ := hi
  simp only at hc hz hcl ho
  subst ho
  by_cases h8 : cnt = 7
  · subst h8
    refine ⟨_, by simp [writeBit, requireOpen]; rfl, ?_⟩
    constructor <;> simp [memWrite, State.setSink, State.setSnkOut, BitSink.Inv]
    have := take_byteBits_setBit byte (c := 7) (by omega) b
    rw [List.take_of_length_le (by simp)] at this
    simpa [State.sinkBits, BitSink.pending] using this
  · refine ⟨_, by simp [writeBit, requireOpen, h8]; rfl, ?_⟩
    constructor <;> simp [State.setSink, BitSink.Inv] <;> try omega
    · have := take_byteBits_setBit byte hc b
      simp [State.sinkBits, BitSink.pending, this]
    · refine ⟨by omega, fun i hi => ?_⟩
      rw [setBit_getLsbD (by omega) _ _ (by omega), if_neg (by omega)]
      exact hz i (by omega)

/-! ### The writing loops (R97) -/

theorem writeSlice_open (v : Nat) (top : Int) (n : Nat) {s : State} (hi : s.snk.Inv)
    (ho : s.snk.closed = false) :
    ∃ t, writeSlice v top n s = .done () t ∧
      Written ((List.range n).map fun k : Nat => bitAt v (top - k)) s t := by
  induction n generalizing top s with
  | zero => exact ⟨s, rfl, Written.refl hi⟩
  | succ n ih =>
    obtain ⟨t, ht, hw⟩ := writeBit_open (b := bitAt v top) hi ho
    obtain ⟨u, hu, hw'⟩ := ih (top - 1) hw.sinkInv (hw.closed.trans ho)
    refine ⟨u, by rw [writeSlice, ht, Run.andThen_done, hu], ?_⟩
    have := hw.trans hw'
    have hl : (List.range (n + 1)).map (fun k : Nat => bitAt v (top - k))
        = [bitAt v top] ++ (List.range n).map fun k : Nat => bitAt v (top - 1 - k) := by
      rw [List.range_succ_eq_map, List.map_cons, List.map_map]
      refine congrArg₂ _ (by simp) (List.map_congr_left fun k _ => ?_)
      simp only [Function.comp]
      congr 1
      push_cast
      omega
    rwa [hl]

theorem bitAt_natCast (v i : Nat) : bitAt v (i : Int) = v.testBit i := rfl

theorem bitAt_neg (v : Nat) {i : Int} (h : i < 0) : bitAt v i = false := by
  cases i with
  | ofNat i => simp at h; omega
  | negSucc i => rfl

theorem bitAt_of_nonneg (v : Nat) {i : Int} (h : 0 ≤ i) : bitAt v i = v.testBit i.toNat := by
  obtain ⟨n, rfl⟩ := Int.eq_ofNat_of_zero_le h
  rfl

theorem writeBits_open (v n : Nat) {s : State} (hi : s.snk.Inv) (ho : s.snk.closed = false) :
    ∃ t, writeBits v n s = .done () t ∧ Written (msbFirst v n) s t := by
  obtain ⟨t, ht, hw⟩ := writeSlice_open v (n - 1) n hi ho
  refine ⟨t, ht, ?_⟩
  have hl : msbFirst v n = (List.range n).map fun k : Nat => bitAt v ((n : Int) - 1 - k) := by
    refine List.map_congr_left fun k hk => ?_
    have := List.mem_range.1 hk
    rw [bitAt_of_nonneg _ (by omega)]
    congr 1
    omega
  rwa [hl]

/-! ### FlushPending (R98) -/

theorem pending_padded {k : BitSink} (h : k.Inv) :
    byteBits k.byte = k.pending ++ List.replicate (8 - k.cnt) false := by
  have hc := h.1
  refine List.ext_getElem? fun i => ?_
  by_cases hi : i < k.cnt
  · rw [List.getElem?_append_left (by simp [BitSink.pending]; omega), BitSink.pending,
      List.getElem?_take_of_lt hi]
  · rw [List.getElem?_append_right (by simp [BitSink.pending]; omega)]
    by_cases h8 : i < 8
    · rw [byteBits_getElem? _ h8, h.2.1 _ (by omega), List.getElem?_replicate,
        if_pos (by simp [BitSink.pending]; omega)]
    · rw [List.getElem?_eq_none (by simp; omega), List.getElem?_eq_none (by simp [BitSink.pending]; omega)]

/-- A flush writes the padding zeros that complete the pending byte, and nothing when none is pending
(R98, R223). -/
theorem flushPending_sinkBits {s : State} (h : s.snk.Inv) :
    (flushPending s).sinkBits = s.sinkBits ++ List.replicate ((8 - s.snk.cnt) % 8) false := by
  have hc := h.1
  unfold flushPending
  split
  · rename_i hpos
    have hp := pending_padded h
    rw [Nat.mod_eq_of_lt (by omega : 8 - s.snk.cnt < 8)]
    simp only [State.sinkBits, State.setSink_snkOut, memWrite_snkOut, State.setSink_snk,
      BitSink.pending, List.take_zero, List.append_nil, List.flatMap_append, List.flatMap_cons,
      List.flatMap_nil, List.append_assoc, List.append_cancel_left_eq]
    exact hp
  · have : s.snk.cnt = 0 := by omega
    simp [this]

@[simp] theorem flushPending_cnt (s : State) : (flushPending s).snk.cnt = 0 := by
  unfold flushPending; split
  · rfl
  · omega

@[simp] theorem flushPending_src (s : State) : (flushPending s).src = s.src := by
  unfold flushPending; split <;> rfl

@[simp] theorem flushPending_srcIn (s : State) : (flushPending s).srcIn = s.srcIn := by
  unfold flushPending; split <;> rfl

@[simp] theorem flushPending_moves (s : State) : (flushPending s).moves = s.moves := by
  unfold flushPending; split <;> rfl

@[simp] theorem flushPending_draws (s : State) : (flushPending s).draws = s.draws := by
  unfold flushPending; split <;> rfl

@[simp] theorem flushPending_responses (s : State) : (flushPending s).responses = s.responses := by
  unfold flushPending; split <;> rfl

@[simp] theorem flushPending_closed (s : State) : (flushPending s).snk.closed = s.snk.closed := by
  unfold flushPending; split <;> rfl

theorem flushPending_inv {s : State} (h : s.snk.Inv) : (flushPending s).snk.Inv := by
  unfold flushPending; split
  · simp [BitSink.Inv]
  · exact h

theorem flushPending_prefix (s : State) : s.snkOut <+: (flushPending s).snkOut := by
  unfold flushPending; split
  · exact ⟨[s.snk.byte], rfl⟩
  · exact List.prefix_rfl

/-! ### The bits written determine the sink -/

theorem byteBits_injective {a b : Byte} (h : byteBits a = byteBits b) : a = b :=
  BitVec.eq_of_toNat_eq (msbFirst_injective a.isLt b.isLt h)

/-- Sequences of bytes of one length are determined by their bits. -/
theorem flatMap_byteBits_inj {a b : List Byte} {x y : List Bool} (hl : a.length = b.length)
   (h : a.flatMap byteBits ++ x = b.flatMap byteBits ++ y) : a = b ∧ x = y := by
  induction a generalizing b with
  | nil => cases b with
    | nil => exact ⟨rfl, h⟩
    | cons => simp at hl
  | cons c a ih => cases b with
    | nil => simp at hl
    | cons d b =>
      simp only [List.flatMap_cons, List.append_assoc] at h
      obtain ⟨h1, h2⟩ := List.append_inj h (by simp)
      obtain ⟨h3, h4⟩ := ih (by simpa using hl) h2
      exact ⟨by rw [byteBits_injective h1, h3], h4⟩

/-- The pending bits, their number and the closed flag are all there is in a sink (R25). -/
theorem BitSink.ext_of_inv {k k' : BitSink} (h : k.Inv) (h' : k'.Inv) (hc : k.cnt = k'.cnt) (hp : k.pending = k'.pending)
    (hcl : k.closed = k'.closed) : k = k' := by
  have h1 := pending_padded h
  have h2 := pending_padded h'
  rw [hp, hc, ← h2] at h1
  rcases k with ⟨b, c, cl⟩
  rcases k' with ⟨b', c', cl'⟩
  simp at hc hcl h1
  rw [hc, hcl, byteBits_injective h1]

/-- Writing the same bits twice from one state leaves the same state (R18). -/
theorem Written.unique {b : List Bool} {s t u : State} (h : Written b s t) (k : Written b s u) : t = u := by
  have hb := h.bits_eq.trans k.bits_eq.symm
  obtain ⟨h1, h2⟩ := flatMap_byteBits_inj (by rw [h.emitted, k.emitted]) hb
  have h3 := BitSink.ext_of_inv h.sinkInv k.sinkInv (h.cnt.trans k.cnt.symm) h2 (h.closed.trans k.closed.symm)
  rcases t with ⟨_, _, _, _, _, _, _⟩
  rcases u with ⟨_, _, _, _, _, _, _⟩
  have := h.src.trans k.src.symm
  have := h.srcIn.trans k.srcIn.symm
  have := h.moves.trans k.moves.symm
  have := h.draws.trans k.draws.symm
  have := h.responses.trans k.responses.symm
  simp_all

/-! ### Whole bytes (30_encoding.md R63) -/

/-- The bits of a word of `8 * n` bits are those of its `n` big-endian bytes (R42, R63). -/
theorem msbFirst_bytes (W n : Nat) : msbFirst W (8 * n) =
    ((List.range n).map fun k => BitVec.ofNat 8 (W / 2 ^ (8 * (n - 1 - k)))).flatMap byteBits := by
  induction n with
  | zero => rfl
  | succ n ih =>
    rw [show 8 * (n + 1) = 8 + 8 * n by ring, msbFirst_add, ih, List.range_succ_eq_map, List.map_cons,
      List.flatMap_cons, List.map_map]
    congr 1
    · simp only [byteBits, BitVec.toNat_ofNat]
      exact msbFirst_eq_of_mod (by simp)
    · congr 1
      refine List.map_congr_left fun k hk => ?_
      have := List.mem_range.1 hk
      simp only [Function.comp]
      congr 4
      omega

/-- Bits that make up whole bytes, written with nothing pending, are those bytes in SNK_OUT and nothing
else (R63). -/
theorem Written.eq_of_bytes {bytes : List Byte} {s t : State} (h : Written (bytes.flatMap byteBits) s t)
    (hc : s.snk.cnt = 0) :
    t = { s with snk := ⟨0x00#8, 0, s.snk.closed⟩, snkOut := s.snkOut ++ bytes } := by
  have hl : (bytes.flatMap byteBits).length = 8 * bytes.length := by
    simp [List.length_flatMap, Nat.mul_comm]
  refine h.unique
    { bits_eq := by simp [State.sinkBits, BitSink.pending, hc]
      cnt := by simp only [hl, hc]; omega
      emitted := by rw [hl, hc, List.length_append]; omega
      kept := List.prefix_append _ _
      closed := rfl
      sinkInv := by simp [BitSink.Inv]
      src := rfl
      srcIn := rfl
      moves := rfl
      draws := rfl
      responses := rfl }

end Sys2Proof.Machine
end

