-- ==== Sys2Proof/Laws/Encoder.lean ====
section
/-! SUPPORT. The encoder: the rounding step in closed form (R137), and the bits every case of 42_encoder.md
writes to an open sink, as words of the wire format (R136). -/

namespace Sys2Proof.Machine

/-! ### The rounding step (R130, R137) -/

/-- `ceil(sig / 2^k)`: what `k` passes of the rounding loop make of `sig` (R137). -/
def ceilShift (sig k : Nat) : Nat := (sig + 2 ^ k - 1) / 2 ^ k

@[simp] theorem ceilShift_zero (sig : Nat) : ceilShift sig 0 = sig := by simp [ceilShift]

/-- `ceilShift` is the least integer whose multiple of `2^k` reaches `sig`. -/
theorem ceilShift_le_iff (sig k c : Nat) : ceilShift sig k ≤ c ↔ sig ≤ c * 2 ^ k := by
  have hp : 0 < 2 ^ k := by positivity
  rw [ceilShift, Nat.div_le_iff_le_mul_add_pred hp, Nat.mul_comm]
  omega

theorem lt_ceilShift_iff (sig k c : Nat) : c < ceilShift sig k ↔ c * 2 ^ k < sig := by
  have := ceilShift_le_iff sig k c
  omega

/-- One pass of the loop is `ceil(sig / 2)` (R137). -/
theorem onePass_eq (sig : Nat) :
    (if sig.testBit 0 = true then sig >>> 1 + 1 else sig >>> 1) = ceilShift sig 1 := by
  rw [ceilShift, Nat.shiftRight_eq_div_pow]
  rcases Nat.mod_two_eq_zero_or_one sig with h | h <;> simp [Nat.testBit_zero, h] <;> omega

theorem ceilShift_ceilShift (sig j k : Nat) : ceilShift (ceilShift sig j) k = ceilShift sig (j + k) := by
  refine Nat.le_antisymm ?_ ?_
  · rw [ceilShift_le_iff, ceilShift_le_iff, Nat.mul_assoc, ← pow_add, Nat.add_comm k j,
      ← ceilShift_le_iff]
  · rw [ceilShift_le_iff, Nat.add_comm j k, pow_add, ← Nat.mul_assoc, ← ceilShift_le_iff,
      ← ceilShift_le_iff]

theorem ceilShift_pos {sig : Nat} (h : 0 < sig) (k : Nat) : 0 < ceilShift sig k := by
  rw [lt_ceilShift_iff]; omega

theorem ceilShift_anti (sig : Nat) {j k : Nat} (h : j ≤ k) : ceilShift sig k ≤ ceilShift sig j := by
  rw [ceilShift_le_iff]
  exact ((ceilShift_le_iff sig j _).1 le_rfl).trans
    (Nat.mul_le_mul_left _ (Nat.pow_le_pow_right (by norm_num) h))

theorem roundLoop_spec (M : Nat) : ∀ (fuel sig : Nat) (exp : Int),
    ceilShift sig fuel < 2 ^ (M + 1) →
    ∃ k : Nat, roundLoop M fuel sig exp = (ceilShift sig k, exp + k) ∧
      ceilShift sig k < 2 ^ (M + 1) ∧ ∀ j < k, 2 ^ (M + 1) ≤ ceilShift sig j
  | 0, sig, exp, h => ⟨0, by simp [roundLoop], h, by simp⟩
  | fuel + 1, sig, exp, h => by
    unfold roundLoop
    split
    · rename_i hlt
      rw [Nat.add_comm fuel 1, ← ceilShift_ceilShift] at h
      obtain ⟨k, h1, h2, h3⟩ := roundLoop_spec M fuel (ceilShift sig 1) (exp + 1) h
      refine ⟨k + 1, ?_, ?_, ?_⟩
      · simp only [onePass_eq, h1, ceilShift_ceilShift, Nat.add_comm 1 k]
        push_cast
        rw [Int.add_assoc, Int.add_comm 1]
      · rwa [Nat.add_comm k 1, ← ceilShift_ceilShift]
      · intro j hj
        cases j with
        | zero => rw [ceilShift_zero]; exact (lt_bitLength_iff sig (M + 1)).1 hlt
        | succ j => rw [Nat.add_comm j 1, ← ceilShift_ceilShift]; exact h3 j (by omega)
    · rename_i hle
      exact ⟨0, by simp, by
        rw [ceilShift_zero, ← bitLength_le_iff]; omega, by simp⟩

/-- The rounding step makes `k` passes, the least number after which the significand fits, and returns
`ceil(sig / 2^k)` with the exponent increased by `k` (R130, R137). -/
theorem roundSignificand_spec (M sig : Nat) (exp : Int) :
    ∃ k : Nat, roundSignificand M sig exp = (ceilShift sig k, exp + k) ∧
      ceilShift sig k < 2 ^ (M + 1) ∧ ∀ j < k, 2 ^ (M + 1) ≤ ceilShift sig j := by
  refine roundLoop_spec M _ sig exp ?_
  refine lt_of_le_of_lt ((ceilShift_le_iff _ _ 1).2 ?_) (Nat.one_lt_two_pow (by omega))
  simpa using (lt_two_pow_bitLength sig).le

theorem roundSignificand_bitLength (M sig : Nat) (exp : Int) :
    bitLength (roundSignificand M sig exp).1 ≤ M + 1 := by
  obtain ⟨k, h1, h2, _⟩ := roundSignificand_spec M sig exp
  rw [h1, bitLength_le_iff]
  exact h2

theorem roundSignificand_pos {sig : Nat} (h : 0 < sig) (M : Nat) (exp : Int) :
    0 < (roundSignificand M sig exp).1 := by
  obtain ⟨k, h1, _⟩ := roundSignificand_spec M sig exp
  rw [h1]
  exact ceilShift_pos h k

/-- A significand of at most `M + 1` bits passes through unchanged (R130). -/
theorem roundSignificand_of_fits {M sig : Nat} (h : bitLength sig ≤ M + 1) (exp : Int) :
    roundSignificand M sig exp = (sig, exp) := by
  obtain ⟨k, h1, _, h3⟩ := roundSignificand_spec M sig exp
  cases k with
  | zero => simpa using h1
  | succ k =>
    have := h3 0 (by omega)
    rw [ceilShift_zero] at this
    rw [bitLength_le_iff] at h
    omega

/-! ### Slices of a significand as mantissa fields (R133, R135) -/

/-- `floor(v * 2^z)` for an integer `z` of either sign. -/
theorem floor_magnitude (z : Int) (v : Nat) :
    ⌊magnitude z v⌋₊ = if 0 ≤ z then v * 2 ^ z.toNat else v / 2 ^ (-z).toNat := by
  unfold magnitude
  split
  · rename_i h
    obtain ⟨n, rfl⟩ := Int.eq_ofNat_of_zero_le h
    rw [zpow_natCast]
    exact_mod_cast Nat.floor_natCast (R := ℚ) (v * 2 ^ n)
  · rename_i h
    obtain ⟨n, hn⟩ := Int.eq_ofNat_of_zero_le (by omega : 0 ≤ -z)
    have hz : z = -(n : Int) := by omega
    subst hz
    rw [zpow_neg, zpow_natCast, ← div_eq_mul_inv]
    have := Nat.floor_div_eq_div (K := ℚ) v (2 ^ n)
    simpa using this

/-- `M` bits of `v` from index `top` downward are the field `floor(v * 2^(M - 1 - top))`, in its low `M`
bits (R133, R135). -/
theorem slice_eq_msbFirst (v : Nat) (top : Int) (M : Nat) :
    ((List.range M).map fun k : Nat => bitAt v (top - k)) = msbFirst ⌊magnitude (M - 1 - top) v⌋₊ M := by
  refine List.map_congr_left fun k hk => ?_
  have hk := List.mem_range.1 hk
  rw [floor_magnitude]
  split
  · rename_i h
    obtain ⟨n, hn⟩ := Int.eq_ofNat_of_zero_le h
    rw [hn, Int.toNat_natCast, Nat.testBit_mul_two_pow]
    by_cases hi : 0 ≤ top - k
    · rw [bitAt_of_nonneg _ hi]
      have h2 : (top - k).toNat = M - 1 - k - n := by omega
      have h3 : n ≤ M - 1 - k := by omega
      simp [h2, h3]
    · rw [bitAt_neg _ (by omega)]
      have h3 : ¬ n ≤ M - 1 - k := by omega
      simp [h3]
  · rename_i h
    rw [bitAt_of_nonneg _ (by omega), Nat.testBit_div_two_pow]
    congr 1
    omega

/-! ### What each case writes -/

theorem encodeZero_open (f : Format) (sign : Bool) {s : State} (hi : s.snk.Inv) (ho : s.snk.closed = false) :
    ∃ t, encodeZero f sign s = .done () t ∧ Written (wordBits f.E f.M (formatWord f.E f.M sign 0 0)) s t := by
  obtain ⟨t, ht, hw⟩ := writeBit_open (b := sign) hi ho
  obtain ⟨u, hu, hw'⟩ := writeBits_open 0 f.E hw.sinkInv (hw.closed.trans ho)
  obtain ⟨v, hv, hw''⟩ := writeBits_open 0 f.M hw'.sinkInv ((hw'.closed.trans hw.closed).trans ho)
  refine ⟨v, by rw [encodeZero, ht, Run.andThen_done, hu, Run.andThen_done, hv], ?_⟩
  have := (hw.trans hw').trans hw''
  rw [wordBits_formatWord sign (by positivity) (by positivity)]
  simpa using this

theorem encodeInfinity_open (f : Format) (sign : Bool) {s : State} (hi : s.snk.Inv)
    (ho : s.snk.closed = false) :
    ∃ t, encodeInfinity f sign s = .done () t ∧
      Written (wordBits f.E f.M (formatWord f.E f.M sign (2 ^ f.E - 1) 0)) s t := by
  obtain ⟨t, ht, hw⟩ := writeBit_open (b := sign) hi ho
  obtain ⟨u, hu, hw'⟩ := writeBits_open (2 ^ f.E - 1) f.E hw.sinkInv (hw.closed.trans ho)
  obtain ⟨v, hv, hw''⟩ := writeBits_open 0 f.M hw'.sinkInv ((hw'.closed.trans hw.closed).trans ho)
  refine ⟨v, by rw [encodeInfinity, ht, Run.andThen_done, hu, Run.andThen_done, hv], ?_⟩
  have := (hw.trans hw').trans hw''
  rw [wordBits_formatWord sign (Nat.sub_lt (by positivity) (by norm_num)) (by positivity)]
  simpa using this

theorem encodeNan_open (f : Format) (hM : 1 ≤ f.M) {s : State} (hi : s.snk.Inv)
    (ho : s.snk.closed = false) :
    ∃ t, encodeNan f s = .done () t ∧
      Written (wordBits f.E f.M (formatWord f.E f.M false (2 ^ f.E - 1) (2 ^ (f.M - 1)))) s t := by
  obtain ⟨t, ht, hw⟩ := writeBit_open (b := false) hi ho
  obtain ⟨u, hu, hw'⟩ := writeBits_open (2 ^ f.E - 1) f.E hw.sinkInv (hw.closed.trans ho)
  have ho' := (hw'.closed.trans hw.closed).trans ho
  obtain ⟨v, hv, hw''⟩ := writeBit_open (b := true) hw'.sinkInv ho'
  obtain ⟨w, hx, hw3⟩ := writeBits_open 0 (f.M - 1) hw''.sinkInv (hw''.closed.trans ho')
  refine ⟨w, by
    rw [encodeNan, ht, Run.andThen_done, hu, Run.andThen_done, hv, Run.andThen_done, hx], ?_⟩
  have := ((hw.trans hw').trans hw'').trans hw3
  rw [wordBits_formatWord false (Nat.sub_lt (by positivity) (by norm_num))
    (Nat.pow_lt_pow_right (by norm_num) (by omega))]
  have hm : msbFirst (2 ^ (f.M - 1)) f.M = true :: msbFirst 0 (f.M - 1) := by
    obtain ⟨m, hm⟩ := Nat.exists_eq_add_of_le' hM
    rw [hm, Nat.add_sub_cancel, msbFirst_succ, Nat.testBit_two_pow_self]
    exact congrArg _ (msbFirst_eq_of_mod (by simp))
  rw [hm]
  simpa using this

/-- The word a rounded significand is written as (R136). -/
def roundedWord (f : Format) (sign : Bool) (sig : Nat) (exp : Int) : Nat :=
  let L : Int := bitLength sig - 1
  let ef : Int := exp + f.bias + L
  if ef ≤ 0 then formatWord f.E f.M sign 0 ⌊magnitude (f.M - 1 + ef - L) sig⌋₊
  else if 2 ^ f.E - 1 ≤ ef then formatWord f.E f.M sign (2 ^ f.E - 1) 0
  else formatWord f.E f.M sign ef.toNat ((sig - 2 ^ (bitLength sig - 1)) * 2 ^ (f.M - (bitLength sig - 1)))

/-- A subnormal's field fits in `M` bits, and is 0 exactly on total underflow (R132, R133). -/
theorem subnormal_field_lt {f : Format} {sig : Nat} {ef : Int} (h : ef ≤ 0) :
    ⌊magnitude (f.M - 1 + ef - (bitLength sig - 1)) sig⌋₊ < 2 ^ f.M := by
  have hlt := lt_two_pow_bitLength sig
  rw [floor_magnitude]
  split
  · calc sig * 2 ^ _ < 2 ^ bitLength sig * 2 ^ (f.M - 1 + ef - ((bitLength sig : Int) - 1)).toNat :=
        Nat.mul_lt_mul_of_pos_right hlt (by positivity)
      _ ≤ 2 ^ f.M := by
        rw [← pow_add]
        exact Nat.pow_le_pow_right (by norm_num) (by omega)
  · rw [Nat.div_lt_iff_lt_mul (by positivity), ← pow_add]
    exact hlt.trans_le (Nat.pow_le_pow_right (by norm_num) (by omega))

theorem subnormal_field_eq_zero_iff {f : Format} {sig : Nat} (hs : 0 < sig) {ef : Int} :
    ⌊magnitude (f.M - 1 + ef - (bitLength sig - 1)) sig⌋₊ = 0 ↔ f.M + ef ≤ 0 := by
  have hb := bitLength_pos hs
  have hle := two_pow_le_of_bitLength hs
  have hlt := lt_two_pow_bitLength sig
  rw [floor_magnitude]
  split
  · have : 0 < sig * 2 ^ (f.M - 1 + ef - ((bitLength sig : Int) - 1)).toNat := Nat.mul_pos hs (by positivity)
    omega
  · rename_i hz
    rw [Nat.div_eq_zero_iff_lt (by positivity)]
    constructor
    · intro h
      by_contra hc
      have : 2 ^ (-(f.M - 1 + ef - ((bitLength sig : Int) - 1))).toNat ≤ 2 ^ (bitLength sig - 1) :=
        Nat.pow_le_pow_right (by norm_num) (by omega)
      omega
    · intro h
      exact hlt.trans_le (Nat.pow_le_pow_right (by norm_num) (by omega))

/-- The `L` low bits of a significand, left-aligned, fit in `M` bits (R135). -/
theorem normal_field_lt {M sig : Nat} (hb : bitLength sig ≤ M + 1) :
    (sig - 2 ^ (bitLength sig - 1)) * 2 ^ (M - (bitLength sig - 1)) < 2 ^ M := by
  rcases Nat.eq_zero_or_pos sig with rfl | hs
  · simp
  · have hp := bitLength_pos hs
    have h1 := lt_two_pow_bitLength sig
    have h2 : 2 ^ bitLength sig = 2 ^ (bitLength sig - 1) * 2 := by rw [← pow_succ]; congr 1; omega
    calc (sig - 2 ^ (bitLength sig - 1)) * 2 ^ (M - (bitLength sig - 1))
        < 2 ^ (bitLength sig - 1) * 2 ^ (M - (bitLength sig - 1)) :=
          Nat.mul_lt_mul_of_pos_right (by omega) (by positivity)
      _ = 2 ^ M := by rw [← pow_add]; congr 1; omega

/-- What the cases of ENC.NUM write once the significand fits (R132 to R136). -/
theorem encodeRounded_open (f : Format) (sign : Bool) {sig : Nat} (hs : 0 < sig)
    (hb : bitLength sig ≤ f.M + 1) (exp : Int) {s : State} (hi : s.snk.Inv) (ho : s.snk.closed = false) :
    ∃ t, encodeRounded f sign sig exp s = .done () t ∧
      Written (wordBits f.E f.M (roundedWord f sign sig exp)) s t := by
  have hp := bitLength_pos hs
  unfold encodeRounded roundedWord
  by_cases hef : exp + f.bias + ((bitLength sig : Int) - 1) ≤ 0
  · simp only [if_pos hef]
    by_cases hz : f.M + (exp + f.bias + ((bitLength sig : Int) - 1)) ≤ 0
    · rw [if_pos hz, (subnormal_field_eq_zero_iff hs).2 hz]
      exact encodeZero_open f sign hi ho
    · rw [if_neg hz]
      obtain ⟨t, ht, hw⟩ := writeBit_open (b := sign) hi ho
      obtain ⟨u, hu, hw'⟩ := writeBits_open 0 f.E hw.sinkInv (hw.closed.trans ho)
      obtain ⟨v, hv, hw''⟩ := writeSlice_open sig
        ((bitLength sig : Int) - 1 - (exp + f.bias + ((bitLength sig : Int) - 1))) f.M
        hw'.sinkInv ((hw'.closed.trans hw.closed).trans ho)
      refine ⟨v, by rw [ht, Run.andThen_done, hu, Run.andThen_done, hv], ?_⟩
      have := (hw.trans hw').trans hw''
      rw [wordBits_formatWord sign (by positivity) (subnormal_field_lt hef)]
      rw [slice_eq_msbFirst] at this
      have harg : (f.M : Int) - 1 - ((bitLength sig : Int) - 1 - (exp + f.bias + ((bitLength sig : Int) - 1)))
          = f.M - 1 + (exp + f.bias + ((bitLength sig : Int) - 1)) - ((bitLength sig : Int) - 1) := by ring
      rw [harg] at this
      simpa using this
  · simp only [if_neg hef]
    by_cases hinf : 2 ^ f.E - 1 ≤ exp + f.bias + ((bitLength sig : Int) - 1)
    · rw [if_pos hinf, if_pos hinf]
      exact encodeInfinity_open f sign hi ho
    · rw [if_neg hinf, if_neg hinf]
      obtain ⟨t, ht, hw⟩ := writeBit_open (b := sign) hi ho
      obtain ⟨u, hu, hw'⟩ := writeBits_open (exp + f.bias + ((bitLength sig : Int) - 1)).toNat f.E
        hw.sinkInv (hw.closed.trans ho)
      obtain ⟨v, hv, hw''⟩ := writeSlice_open sig ((bitLength sig : Int) - 1 - 1) f.M
        hw'.sinkInv ((hw'.closed.trans hw.closed).trans ho)
      refine ⟨v, by rw [ht, Run.andThen_done, hu, Run.andThen_done, hv], ?_⟩
      have := (hw.trans hw').trans hw''
      have hEf : (exp + f.bias + ((bitLength sig : Int) - 1)).toNat < 2 ^ f.E := by
        have : ((2 ^ f.E : Nat) : Int) = 2 ^ f.E := by push_cast; rfl
        omega
      rw [wordBits_formatWord sign hEf (normal_field_lt hb)]
      rw [slice_eq_msbFirst, floor_magnitude, if_pos (by omega)] at this
      have hexp : ((f.M : Int) - 1 - ((bitLength sig : Int) - 1 - 1)).toNat = f.M - (bitLength sig - 1) := by
        omega
      have hmod : msbFirst (sig * 2 ^ (f.M - (bitLength sig - 1))) f.M
          = msbFirst ((sig - 2 ^ (bitLength sig - 1)) * 2 ^ (f.M - (bitLength sig - 1))) f.M := by
        refine msbFirst_eq_of_mod ?_
        have hle := two_pow_le_of_bitLength hs
        obtain ⟨r, hr⟩ := Nat.exists_eq_add_of_le hle
        have h2 : 2 ^ (bitLength sig - 1) * 2 ^ (f.M - (bitLength sig - 1)) = 2 ^ f.M := by
          rw [← pow_add]; congr 1; omega
        have h3 : sig * 2 ^ (f.M - (bitLength sig - 1))
            = 2 ^ f.M + (sig - 2 ^ (bitLength sig - 1)) * 2 ^ (f.M - (bitLength sig - 1)) := by
          rw [← h2, ← Nat.add_mul]; congr 1; omega
        rw [h3, Nat.add_mod_left]
      rw [hexp, hmod] at this
      simpa using this

/-- ENC.NUM's bits: round first, then the word of R136. -/
theorem encodeNumber_open (f : Format) (sign : Bool) (exp : Int) {sig : Nat} (hs : 0 < sig)
    {s : State} (hi : s.snk.Inv) (ho : s.snk.closed = false) :
    ∃ t, encodeNumber f sign exp sig s = .done () t ∧
      Written (wordBits f.E f.M (roundedWord f sign (roundSignificand f.M sig exp).1
        (roundSignificand f.M sig exp).2)) s t :=
  encodeRounded_open f sign (roundSignificand_pos hs _ _) (roundSignificand_bitLength _ _ _) _ hi ho

/-! ### A closed sink (R143) -/

theorem encodeZero_closed (f : Format) (sign : Bool) {s : State} (h : s.snk.closed = true) :
    encodeZero f sign s = .raised .state s := by
  rw [encodeZero, writeBit_closed h, Run.andThen_raised]

theorem encodeInfinity_closed (f : Format) (sign : Bool) {s : State} (h : s.snk.closed = true) :
    encodeInfinity f sign s = .raised .state s := by
  rw [encodeInfinity, writeBit_closed h, Run.andThen_raised]

theorem encodeNan_closed (f : Format) {s : State} (h : s.snk.closed = true) :
    encodeNan f s = .raised .state s := by
  rw [encodeNan, writeBit_closed h, Run.andThen_raised]

theorem encodeNumber_closed (f : Format) (sign : Bool) (exp : Int) (sig : Nat) {s : State}
    (h : s.snk.closed = true) : encodeNumber f sign exp sig s = .raised .state s := by
  simp only [encodeNumber, encodeRounded, encodeZero_closed f sign h, encodeInfinity_closed f sign h,
    writeBit_closed h, Run.andThen_raised, ite_self]

end Sys2Proof.Machine
end

