-- ==== Sys2Proof/Laws/Operands.lean ====
section
/-! SUPPORT. The operand checks of the machine agree with WellFormed (R111, R117, R118, R186). -/

namespace Sys2Proof.Machine

/-- A well-formed descriptor has natural widths and a bias, and passes the check unchanged (R111). -/
theorem formatOf_of_wellFormed {d : Descriptor} (h : d.wellFormed = true) :
    ∃ (E M : Nat) (bias : Int), 2 ≤ E ∧ 1 ≤ M ∧ d = ⟨E, M, some bias⟩ ∧ formatOf d = some ⟨E, M, bias⟩ := by
  rcases d with ⟨elen, mlen, bias⟩
  simp only [Descriptor.wellFormed, Bool.and_eq_true, decide_eq_true_eq, Option.isSome_iff_exists] at h
  obtain ⟨⟨hE, hM⟩, b, rfl⟩ := h
  obtain ⟨E, rfl⟩ := Int.eq_ofNat_of_zero_le (by omega : 0 ≤ elen)
  obtain ⟨M, rfl⟩ := Int.eq_ofNat_of_zero_le (by omega : 0 ≤ mlen)
  exact ⟨E, M, b, by omega, by omega, rfl, by simp [formatOf, hE, hM]⟩

theorem formatOf_of_not_wellFormed {d : Descriptor} (h : d.wellFormed = false) : formatOf d = none := by
  rcases d with ⟨elen, mlen, bias⟩
  unfold formatOf
  split
  · cases bias <;> simp_all [Descriptor.wellFormed]
  · rfl

theorem formatOf_eq {E M : Nat} (hE : 2 ≤ E) (hM : 1 ≤ M) (bias : Int) :
    formatOf ⟨E, M, some bias⟩ = some ⟨E, M, bias⟩ := by
  have h1 : (2 : Int) ≤ E := by omega
  have h2 : (1 : Int) ≤ M := by omega
  simp [formatOf, h1, h2]

theorem numberOf_of_wellFormed {exp : Option Int} {sig : Option Nat} (h : numberWellFormed exp sig = true) :
    ∃ e g, 0 < g ∧ exp = some e ∧ sig = some g ∧ numberOf exp sig = some (e, g) := by
  cases exp with
  | none => simp [numberWellFormed] at h
  | some e =>
    cases sig with
    | none => simp [numberWellFormed] at h
    | some g =>
      have hg : g ≠ 0 := by simpa [numberWellFormed] using h
      exact ⟨e, g, Nat.pos_of_ne_zero hg, rfl, rfl, by simp [numberOf, hg]⟩

theorem numberOf_of_not_wellFormed {exp : Option Int} {sig : Option Nat}
    (h : numberWellFormed exp sig = false) : numberOf exp sig = none := by
  cases exp <;> cases sig <;> simp_all [numberWellFormed, numberOf]

@[simp] theorem requireOperand_some {α : Type} (a : α) (s : State) :
    requireOperand (some a) s = .done a s := rfl

@[simp] theorem requireOperand_none {α : Type} (s : State) :
    requireOperand (none : Option α) s = .raised .argument s := rfl

end Sys2Proof.Machine
end

