-- ==== Sys2Proof/Laws/Exec.lean ====
section
/-! SUPPORT. What a command can do, said once: every command is the end of a run whose outcomes are listed in
`commandRun_cases`, in every state, reachable or not. -/

namespace Sys2Proof.Machine

/-! ### Frames that need no invariant -/

/-- `t` is `s` after the sink of `s` was written to and nothing else: bytes are only appended, the closed flag
stays (R46, R95). -/
structure SinkFrame (s t : State) : Prop where
  src       : t.src = s.src
  srcIn     : t.srcIn = s.srcIn
  moves     : t.moves = s.moves
  draws     : t.draws = s.draws
  responses : t.responses = s.responses
  closed    : t.snk.closed = s.snk.closed
  kept      : s.snkOut <+: t.snkOut

theorem SinkFrame.refl (s : State) : SinkFrame s s := ⟨rfl, rfl, rfl, rfl, rfl, rfl, List.prefix_rfl⟩

theorem SinkFrame.trans {s t u : State} (h : SinkFrame s t) (k : SinkFrame t u) : SinkFrame s u :=
  ⟨k.src.trans h.src, k.srcIn.trans h.srcIn, k.moves.trans h.moves, k.draws.trans h.draws,
    k.responses.trans h.responses, k.closed.trans h.closed, h.kept.trans k.kept⟩

theorem writeBit_frame (b : Bool) {s : State} (ho : s.snk.closed = false) :
    ∃ t, writeBit b s = .done () t ∧ SinkFrame s t := by
  by_cases h8 : s.snk.cnt + 1 = 8
  · exact ⟨(memWrite (setBit s.snk.byte (7 - s.snk.cnt) b) s).setSink { s.snk with byte := 0x00#8, cnt := 0 },
      by simp only [writeBit, requireOpen, ho, Bool.false_eq_true, if_false, Run.andThen_done, if_pos h8],
      ⟨rfl, rfl, rfl, rfl, rfl, rfl, ⟨_, rfl⟩⟩⟩
  · exact ⟨s.setSink { s.snk with byte := setBit s.snk.byte (7 - s.snk.cnt) b, cnt := s.snk.cnt + 1 },
      by simp only [writeBit, requireOpen, ho, Bool.false_eq_true, if_false, Run.andThen_done, if_neg h8],
      ⟨rfl, rfl, rfl, rfl, rfl, rfl, List.prefix_rfl⟩⟩

/-- A run on an open sink that ends with the sink frame, followed by another. -/
theorem andThen_frame {f : Unit → State → Run Unit} {s : State} {r : Run Unit}
    (hr : ∃ t, r = .done () t ∧ SinkFrame s t) (ho : s.snk.closed = false)
    (hf : ∀ t : State, t.snk.closed = false → ∃ u, f () t = .done () u ∧ SinkFrame t u) :
    ∃ u, r.andThen f = .done () u ∧ SinkFrame s u := by
  obtain ⟨t, rfl, h⟩ := hr
  obtain ⟨u, hu, k⟩ := hf t (h.closed.trans ho)
  exact ⟨u, hu, h.trans k⟩

theorem writeSlice_frame (v : Nat) (top : Int) (n : Nat) {s : State} (ho : s.snk.closed = false) :
    ∃ t, writeSlice v top n s = .done () t ∧ SinkFrame s t := by
  induction n generalizing top s with
  | zero => exact ⟨s, rfl, SinkFrame.refl s⟩
  | succ n ih => exact andThen_frame (writeBit_frame _ ho) ho fun t ht => ih (top - 1) ht

theorem writeBits_frame (v n : Nat) {s : State} (ho : s.snk.closed = false) :
    ∃ t, writeBits v n s = .done () t ∧ SinkFrame s t := writeSlice_frame v _ n ho

theorem encodeZero_frame (f : Format) (sign : Bool) {s : State} (ho : s.snk.closed = false) :
    ∃ t, encodeZero f sign s = .done () t ∧ SinkFrame s t :=
  andThen_frame (writeBit_frame _ ho) ho fun _ ht =>
    andThen_frame (writeBits_frame _ _ ht) ht fun _ hu => writeBits_frame _ _ hu

theorem encodeInfinity_frame (f : Format) (sign : Bool) {s : State} (ho : s.snk.closed = false) :
    ∃ t, encodeInfinity f sign s = .done () t ∧ SinkFrame s t :=
  andThen_frame (writeBit_frame _ ho) ho fun _ ht =>
    andThen_frame (writeBits_frame _ _ ht) ht fun _ hu => writeBits_frame _ _ hu

theorem encodeNan_frame (f : Format) {s : State} (ho : s.snk.closed = false) :
    ∃ t, encodeNan f s = .done () t ∧ SinkFrame s t :=
  andThen_frame (writeBit_frame _ ho) ho fun _ ht =>
    andThen_frame (writeBits_frame _ _ ht) ht fun _ hu =>
      andThen_frame (writeBit_frame _ hu) hu fun _ hv => writeBits_frame _ _ hv

theorem encodeNumber_frame (f : Format) (sign : Bool) (exp : Int) (sig : Nat) {s : State}
    (ho : s.snk.closed = false) : ∃ t, encodeNumber f sign exp sig s = .done () t ∧ SinkFrame s t := by
  simp only [encodeNumber, encodeRounded]
  split
  · split
    · exact encodeZero_frame f sign ho
    · exact andThen_frame (writeBit_frame _ ho) ho fun _ ht =>
        andThen_frame (writeBits_frame _ _ ht) ht fun _ hu => writeSlice_frame _ _ _ hu
  · split
    · exact encodeInfinity_frame f sign ho
    · exact andThen_frame (writeBit_frame _ ho) ho fun _ ht =>
        andThen_frame (writeBits_frame _ _ ht) ht fun _ hu => writeSlice_frame _ _ _ hu

/-! ### Every command is the end of a run -/

/-- The run of a command: its meaning before `finish`. -/
def commandRun (i : Instr) (s : State) : Run Result :=
  match i with
  | .srcNext => (nextBit s).andThen fun b s => .done (.bit b) s
  | .snkWrite b => (writeBit b s).andThen fun _ s => .done .nothing s
  | .snkFlush => (requireOpen s).andThen fun _ s => .done .nothing (flushPending s)
  | .snkClose => (requireOpen s).andThen fun _ s => .done .nothing (markClosed (flushPending s))
  | .encZero fmt sign => (requireOperand (formatOf fmt) s).andThen fun f s =>
      (encodeZero f sign s).andThen fun _ s => .done .nothing s
  | .encInf fmt sign => (requireOperand (formatOf fmt) s).andThen fun f s =>
      (encodeInfinity f sign s).andThen fun _ s => .done .nothing s
  | .encNan fmt => (requireOperand (formatOf fmt) s).andThen fun f s =>
      (encodeNan f s).andThen fun _ s => .done .nothing s
  | .encNum fmt sign exp sig => (requireOperand (formatOf fmt) s).andThen fun f s =>
      (requireOperand (numberOf exp sig) s).andThen fun n s =>
      (encodeNumber f sign n.1 n.2 s).andThen fun _ s => .done .nothing s
  | .decode fmt => (requireOperand (formatOf fmt) s).andThen fun f s =>
      (decodeValue f s).andThen fun v s => .done (.value v) s

theorem exec_eq_finish (i : Instr) (s : State) : exec i s = finish (commandRun i s) := by
  cases i <;> rfl

@[simp] theorem finish_done (r : Result) (s : State) : finish (.done r s) = .next (s.respond (.ok r)) := rfl

@[simp] theorem finish_raised (e : ErrorStatus) (s : State) :
    finish (.raised e s) = .next (s.respond (.error e)) := rfl

/-- The commands that use the Bit Source. -/
abbrev ReadsSource (i : Instr) : Prop := i = .srcNext ∨ ∃ fmt, i = .decode fmt

/-- What a command can do (R190, R195): it raises ArgumentError exactly on ill-formed operands, changing
nothing; StateError on a closed sink, changing nothing; IOError when the source runs out; or it is done,
having moved one stream only. -/
inductive CommandOutcome (i : Instr) (s : State) : Run Result → Prop where
  | argument (h : ¬ i.WellFormed) : CommandOutcome i s (.raised .argument s)
  | closed (hw : i.WellFormed) (hi : ¬ ReadsSource i) (h : s.snk.closed = true) :
      CommandOutcome i s (.raised .state s)
  | emptySource (hi : i = .srcNext) (h : s.sourceBits = []) : CommandOutcome i s (.raised .io s)
  | shortSource (fmt : Descriptor) (hi : i = .decode fmt) (hw : i.WellFormed) :
      CommandOutcome i s (.raised .io (s.afterReading (s.src.cnt + 8 * s.srcIn.length)))
  | read (r : Result) (n : Nat) (hw : i.WellFormed) (hi : ReadsSource i)
      (hn : n ≤ s.src.cnt + 8 * s.srcIn.length) : CommandOutcome i s (.done r (s.afterReading n))
  | wrote (t : State) (hw : i.WellFormed) (hi : ¬ ReadsSource i) (ho : s.snk.closed = false)
      (hc : i ≠ .snkClose) (h : SinkFrame s t) : CommandOutcome i s (.done .nothing t)
  | closes (hi : i = .snkClose) (ho : s.snk.closed = false) :
      CommandOutcome i s (.done .nothing (markClosed (flushPending s)))

theorem flushPending_frame (s : State) : SinkFrame s (flushPending s) :=
  ⟨by simp, by simp, by simp, by simp, by simp, by simp, flushPending_prefix s⟩

/-- The outcomes of an ENC command whose operands are checked. -/
theorem encOutcome {i : Instr} {s : State} {r : State → Run Unit} (hw : i.WellFormed) (hi : ¬ ReadsSource i)
    (hc : i ≠ .snkClose) (hclosed : s.snk.closed = true → r s = .raised .state s)
    (hopen : s.snk.closed = false → ∃ t, r s = .done () t ∧ SinkFrame s t) :
    CommandOutcome i s ((r s).andThen fun _ s => .done .nothing s) := by
  cases h : s.snk.closed with
  | true => rw [hclosed h]; exact .closed hw hi h
  | false =>
    obtain ⟨t, ht, hf⟩ := hopen h
    rw [ht]
    exact .wrote t hw hi h hc hf

theorem commandRun_cases (i : Instr) (s : State) : CommandOutcome i s (commandRun i s) := by
  cases i with
  | srcNext =>
    cases hb : s.sourceBits with
    | nil => simp only [commandRun, nextBit_of_empty hb, Run.andThen_raised]; exact .emptySource rfl hb
    | cons b rest =>
      have hl := congrArg List.length hb
      rw [State.sourceBits_length, List.length_cons] at hl
      simp only [commandRun, (nextBit_of_cons hb).1, Run.andThen_done]
      exact .read _ 1 rfl (.inl rfl) (by omega)
  | snkWrite b =>
    exact encOutcome rfl (by simp [ReadsSource]) (by simp) writeBit_closed (writeBit_frame b)
  | snkFlush =>
    cases h : s.snk.closed with
    | true => simp only [commandRun, requireOpen, h]; exact .closed rfl (by simp [ReadsSource]) h
    | false =>
      simp only [commandRun, requireOpen, h]
      exact .wrote _ rfl (by simp [ReadsSource]) h (by simp) (flushPending_frame s)
  | snkClose =>
    cases h : s.snk.closed with
    | true => simp only [commandRun, requireOpen, h]; exact .closed rfl (by simp [ReadsSource]) h
    | false => simp only [commandRun, requireOpen, h]; exact .closes rfl h
  | encZero fmt sign =>
    cases hw : fmt.wellFormed with
    | false =>
      simp only [commandRun, formatOf_of_not_wellFormed hw, requireOperand_none, Run.andThen_raised]
      exact .argument (by simp [Instr.wellFormed, hw])
    | true =>
      obtain ⟨E, M, bias, _, _, _, hf⟩ := formatOf_of_wellFormed hw
      simp only [commandRun, hf, requireOperand_some, Run.andThen_done]
      exact encOutcome (r := encodeZero ⟨E, M, bias⟩ sign) hw (by simp [ReadsSource]) (by simp)
        (encodeZero_closed _ _) (encodeZero_frame _ _)
  | encInf fmt sign =>
    cases hw : fmt.wellFormed with
    | false =>
      simp only [commandRun, formatOf_of_not_wellFormed hw, requireOperand_none, Run.andThen_raised]
      exact .argument (by simp [Instr.wellFormed, hw])
    | true =>
      obtain ⟨E, M, bias, _, _, _, hf⟩ := formatOf_of_wellFormed hw
      simp only [commandRun, hf, requireOperand_some, Run.andThen_done]
      exact encOutcome (r := encodeInfinity ⟨E, M, bias⟩ sign) hw (by simp [ReadsSource]) (by simp)
        (encodeInfinity_closed _ _) (encodeInfinity_frame _ _)
  | encNan fmt =>
    cases hw : fmt.wellFormed with
    | false =>
      simp only [commandRun, formatOf_of_not_wellFormed hw, requireOperand_none, Run.andThen_raised]
      exact .argument (by simp [Instr.wellFormed, hw])
    | true =>
      obtain ⟨E, M, bias, _, _, _, hf⟩ := formatOf_of_wellFormed hw
      simp only [commandRun, hf, requireOperand_some, Run.andThen_done]
      exact encOutcome (r := encodeNan ⟨E, M, bias⟩) hw (by simp [ReadsSource]) (by simp)
        (encodeNan_closed _) (encodeNan_frame _)
  | encNum fmt sign exp sig =>
    cases hw : fmt.wellFormed with
    | false =>
      simp only [commandRun, formatOf_of_not_wellFormed hw, requireOperand_none, Run.andThen_raised]
      exact .argument (by simp [Instr.wellFormed, hw])
    | true =>
      obtain ⟨E, M, bias, _, _, _, hf⟩ := formatOf_of_wellFormed hw
      cases hn : numberWellFormed exp sig with
      | false =>
        simp only [commandRun, hf, requireOperand_some, Run.andThen_done,
          numberOf_of_not_wellFormed hn, requireOperand_none, Run.andThen_raised]
        exact .argument (by simp [Instr.wellFormed, hn])
      | true =>
        obtain ⟨e, g, _, rfl, rfl, hnum⟩ := numberOf_of_wellFormed hn
        simp only [commandRun, hf, hnum, requireOperand_some, Run.andThen_done]
        exact encOutcome (r := encodeNumber ⟨E, M, bias⟩ sign e g) (by
          show (fmt.wellFormed && numberWellFormed (some e) (some g)) = true
          rw [hw, hn]; rfl)
          (by simp [ReadsSource]) (by simp) (encodeNumber_closed _ _ _ _) (encodeNumber_frame _ _ _ _)
  | decode fmt =>
    cases hw : fmt.wellFormed with
    | false =>
      simp only [commandRun, formatOf_of_not_wellFormed hw, requireOperand_none, Run.andThen_raised]
      exact .argument (by simp [Instr.wellFormed, hw])
    | true =>
      obtain ⟨E, M, bias, _, _, _, hf⟩ := formatOf_of_wellFormed hw
      simp only [commandRun, hf, requireOperand_some, Run.andThen_done]
      rcases decodeValue_cases ⟨E, M, bias⟩ s with ⟨sign, e, m, rest, _, _, hs, hv⟩ | ⟨_, hv⟩
      · have hl := congrArg List.length hs
        simp only [State.sourceBits_length, List.cons_append, List.length_cons, List.length_append,
          msbFirst_length] at hl
        rw [hv]
        exact .read _ _ hw (.inr ⟨fmt, rfl⟩) (by dsimp only at hl ⊢; omega)
      · rw [hv]
        exact .shortSource fmt rfl hw

/-! ### Commands whose descriptor is valid -/

section valid

variable {E M : Nat} (hE : 2 ≤ E) (hM : 1 ≤ M) (bias : Int) (sign : Bool) (s : State)

include hE hM

theorem exec_encZero_valid : exec (.encZero ⟨E, M, some bias⟩ sign) s
    = finish ((encodeZero ⟨E, M, bias⟩ sign s).andThen fun _ s => .done .nothing s) := by
  rw [exec_eq_finish, commandRun, formatOf_eq hE hM, requireOperand_some, Run.andThen_done]

theorem exec_encInf_valid : exec (.encInf ⟨E, M, some bias⟩ sign) s
    = finish ((encodeInfinity ⟨E, M, bias⟩ sign s).andThen fun _ s => .done .nothing s) := by
  rw [exec_eq_finish, commandRun, formatOf_eq hE hM, requireOperand_some, Run.andThen_done]

theorem exec_encNan_valid : exec (.encNan ⟨E, M, some bias⟩) s
    = finish ((encodeNan ⟨E, M, bias⟩ s).andThen fun _ s => .done .nothing s) := by
  rw [exec_eq_finish, commandRun, formatOf_eq hE hM, requireOperand_some, Run.andThen_done]

theorem exec_encNum_valid (exp : Int) {sig : Nat} (hs : 0 < sig) :
    exec (.encNum ⟨E, M, some bias⟩ sign (some exp) (some sig)) s
      = finish ((encodeNumber ⟨E, M, bias⟩ sign exp sig s).andThen fun _ s => .done .nothing s) := by
  have hn : numberOf (some exp) (some sig) = some (exp, sig) := by simp [numberOf, hs.ne']
  rw [exec_eq_finish, commandRun, formatOf_eq hE hM, requireOperand_some, Run.andThen_done, hn,
    requireOperand_some, Run.andThen_done]

theorem exec_decode_valid : exec (.decode ⟨E, M, some bias⟩) s
    = finish ((decodeValue ⟨E, M, bias⟩ s).andThen fun v s => .done (.value v) s) := by
  rw [exec_eq_finish, commandRun, formatOf_eq hE hM, requireOperand_some, Run.andThen_done]

end valid

/-- Every command ends, with a response (R19, R73). -/
theorem exec_next (i : Instr) (s : State) : ∃ (t : State) (a : Response), exec i s = .next (t.respond a) := by
  rw [exec_eq_finish]
  cases h : commandRun i s with
  | done r t => exact ⟨t, .ok r, rfl⟩
  | raised e t => exact ⟨t, .error e, rfl⟩

/-- What holds of every way a command can end: the channels but for the response are untouched, the source is
only consumed, the sink only appended to, and one stream is left alone (R46, R53, R73). -/
structure CommandFrame (i : Instr) (s t : State) : Prop where
  moves     : t.moves = s.moves
  draws     : t.draws = s.draws
  responses : t.responses = s.responses
  consumed  : t.srcIn <:+ s.srcIn
  kept      : s.snkOut <+: t.snkOut
  sink      : ReadsSource i → t.snk = s.snk ∧ t.snkOut = s.snkOut
  source    : ¬ ReadsSource i → t.src = s.src ∧ t.srcIn = s.srcIn

/-- The state a run ends in. -/
def Run.final {α : Type} : Run α → State
  | .done _ s => s
  | .raised _ s => s

theorem CommandOutcome.frame {i : Instr} {s : State} {r : Run Result} (h : CommandOutcome i s r) :
    CommandFrame i s r.final := by
  have hsame : CommandFrame i s s :=
    ⟨rfl, rfl, rfl, List.suffix_rfl, List.prefix_rfl, fun _ => ⟨rfl, rfl⟩, fun _ => ⟨rfl, rfl⟩⟩
  have hread : ∀ n, ReadsSource i → CommandFrame i s (s.afterReading n) := fun n hi =>
    ⟨rfl, rfl, rfl, by rw [State.afterReading_srcIn]; exact List.drop_suffix _ _, List.prefix_rfl,
      fun _ => ⟨rfl, rfl⟩, fun hn => absurd hi hn⟩
  have hwrite : ∀ t, ¬ ReadsSource i → SinkFrame s t → CommandFrame i s t := fun t hi h =>
    ⟨h.moves, h.draws, h.responses, by rw [h.srcIn], h.kept, fun hr => absurd hr hi,
      fun _ => ⟨h.src, h.srcIn⟩⟩
  cases h with
  | argument => exact hsame
  | closed => exact hsame
  | emptySource => exact hsame
  | shortSource fmt hi => exact hread _ (.inr ⟨fmt, hi⟩)
  | read _ n _ hi => exact hread n hi
  | wrote t _ hi _ _ h => exact hwrite t hi h
  | closes hi =>
    have hs : ¬ ReadsSource i := by subst hi; simp [ReadsSource]
    have hf := flushPending_frame s
    exact ⟨hf.moves, hf.draws, hf.responses, ⟨[], hf.srcIn⟩, hf.kept, fun hr => absurd hr hs, fun _ => ⟨hf.src, hf.srcIn⟩⟩

end Sys2Proof.Machine
end

