-- ==== Sys2Proof/Laws/PerInstr.lean ====
section
/-! SUPPORT. The statement made once per command: the encoder's word selects exactly one row of the opcode table,
the row of the command's own operation (30_encoding.md R71). -/

namespace Sys2Proof.Laws.EncodesOwnRow

/-- The operation code of a command. -/
def opcodeOf : Instr → Opcode
  | .srcNext => .srcNext
  | .snkWrite _ => .snkWrite
  | .snkFlush => .snkFlush
  | .snkClose => .snkClose
  | .encZero _ _ => .encZero
  | .encInf _ _ => .encInf
  | .encNan _ => .encNan
  | .encNum _ _ _ _ => .encNum
  | .decode _ => .decode

/-- The rows that the encoder's word for `i` selects are the row of `i` and no other. -/
def Statement (i : Instr) : Prop :=
  (opcodeRows.filter fun row => row.selects (encodeInstr i).cmd).map (fun row => row.op) = [opcodeOf i]

theorem srcNext : Statement .srcNext := by unfold Statement; decide

theorem snkWrite (b : Bool) : Statement (.snkWrite b) := by
  unfold Statement; revert b; decide

theorem snkFlush : Statement .snkFlush := by unfold Statement; decide

theorem snkClose : Statement .snkClose := by unfold Statement; decide

theorem encZero (fmt : Descriptor) (s : Bool) : Statement (.encZero fmt s) := by
  cases s <;> simp [Statement, opcodeRows, Row.selects, encodeInstr, withImmediate, opcodeOf]

theorem encInf (fmt : Descriptor) (s : Bool) : Statement (.encInf fmt s) := by
  cases s <;> simp [Statement, opcodeRows, Row.selects, encodeInstr, withImmediate, opcodeOf]

theorem encNan (fmt : Descriptor) : Statement (.encNan fmt) := by
  simp [Statement, opcodeRows, Row.selects, encodeInstr, opcodeOf]

theorem encNum (fmt : Descriptor) (s : Bool) (exp : Option Int) (sig : Option Nat) :
    Statement (.encNum fmt s exp sig) := by
  cases s <;> simp [Statement, opcodeRows, Row.selects, encodeInstr, withImmediate, opcodeOf]

theorem decode (fmt : Descriptor) : Statement (.decode fmt) := by
  simp [Statement, opcodeRows, Row.selects, encodeInstr, opcodeOf]

end Sys2Proof.Laws.EncodesOwnRow
end

