-- ==== Sys2Proof/Laws/Rounding.lean ====
section
/-! SUPPORT. The rounding step and the word of ENC.NUM as functions of the magnitude alone: rounding up to `M + 1`
significant bits (R137, R138), and monotonicity of the word in the rounded magnitude (R145). -/

namespace Sys2Proof.Machine

/-! ### Magnitudes (R116) -/

theorem magnitude_pos {sig : Nat} (h : 0 < sig) (exp : Int) : 0 < magnitude exp sig := by
  unfold magnitude; positivity

theorem magnitude_mul_two_pow (e : Int) (g t : Nat) : magnitude e (g * 2 ^ t) = magnitude (e + t) g := by
  unfold magnitude
  push_cast
  rw [zpow_add₀ (by norm_num), zpow_natCast]; ring

theorem magnitude_mul_zpow (e z : Int) (g : Nat) : magnitude e g * 2 ^ z = magnitude (e + z) g := by
  unfold magnitude
  rw [zpow_add₀ (by norm_num), mul_assoc]

/-- The leading bit of the magnitude has weight `2^(exp + L)` (R131). -/
theorem log_magnitude {sig : Nat} (h : 0 < sig) (exp : Int) :
    Int.log 2 (magnitude exp sig) = exp + ((bitLength sig : Int) - 1) := by
  have hb := bitLength_pos h
  have h1 := two_pow_le_of_bitLength h
  have h2 := lt_two_pow_bitLength sig
  have key : ∀ k : Nat, (2:ℚ) ^ (exp + (k : Int)) = 2 ^ k * 2 ^ exp := by
    intro k; rw [zpow_add₀ (by norm_num), zpow_natCast, mul_comm]
  refine le_antisymm ?_ ?_
  · rw [← Int.lt_add_one_iff, ← Int.lt_zpow_iff_log_lt (by norm_num) (magnitude_pos h exp)]
    have : exp + ((bitLength sig : Int) - 1) + 1 = exp + (bitLength sig : Int) := by ring
    rw [this]
    push_cast
    rw [key, magnitude]
    gcongr
    exact_mod_cast h2
  · rw [← Int.zpow_le_iff_le_log (by norm_num) (magnitude_pos h exp)]
    have : exp + ((bitLength sig : Int) - 1) = exp + ((bitLength sig - 1 : Nat) : Int) := by omega
    rw [this]
    push_cast
    rw [key, magnitude]
    gcongr
    exact_mod_cast h1

/-! ### Rounding up (R137, R138) -/

/-- The magnitude rounded up to `M + 1` significant bits. -/
def roundUp (M : Nat) (x : ℚ) : ℚ := ⌈x * 2 ^ ((M : Int) - Int.log 2 x)⌉ * 2 ^ (Int.log 2 x - (M : Int))

theorem ceil_magnitude (sig k : Nat) : ⌈magnitude (-(k : Int)) sig⌉ = (ceilShift sig k : Int) := by
  refine le_antisymm ?_ ?_
  · rw [Int.ceil_le, magnitude, zpow_neg, zpow_natCast, ← div_eq_mul_inv, div_le_iff₀ (by positivity)]
    exact_mod_cast (ceilShift_le_iff sig k _).1 le_rfl
  · have h := Int.le_ceil (magnitude (-(k : Int)) sig)
    rw [magnitude, zpow_neg, zpow_natCast, ← div_eq_mul_inv, div_le_iff₀ (by positivity)] at h
    have h0 : 0 ≤ ⌈(sig : ℚ) / 2 ^ k⌉ := Int.ceil_nonneg (by positivity)
    rw [magnitude, zpow_neg, zpow_natCast, ← div_eq_mul_inv]
    obtain ⟨c, hc⟩ := Int.eq_ofNat_of_zero_le h0
    rw [hc] at h ⊢
    have : ceilShift sig k ≤ c := by
      rw [ceilShift_le_iff]; exact_mod_cast h
    omega

/-- The rounding step rounds the magnitude up to `M + 1` significant bits (R138). -/
theorem magnitude_roundSignificand {M sig : Nat} (h : 0 < sig) (exp : Int) :
    magnitude (roundSignificand M sig exp).2 (roundSignificand M sig exp).1 = roundUp M (magnitude exp sig) := by
  obtain ⟨k, h1, h2, h3⟩ := roundSignificand_spec M sig exp
  have hb := bitLength_pos h
  rw [h1, roundUp, log_magnitude h, magnitude_mul_zpow]
  have e1 : exp + ((M : Int) - (exp + ((bitLength sig : Int) - 1))) = M + 1 - bitLength sig := by ring
  rw [e1]
  dsimp only
  by_cases hf : bitLength sig ≤ M + 1
  · -- no pass
    have hk : k = 0 := by
      by_contra hk
      have := h3 0 (by omega)
      rw [ceilShift_zero] at this
      rw [bitLength_le_iff] at hf
      omega
    subst hk
    obtain ⟨z, hz⟩ := Int.eq_ofNat_of_zero_le (by omega : (0:Int) ≤ M + 1 - bitLength sig)
    rw [hz]
    have : magnitude (z : Int) sig = ((sig * 2 ^ z : Nat) : ℚ) := by
      rw [magnitude, zpow_natCast]; push_cast; rfl
    simp only [ceilShift_zero]
    rw [this, Int.ceil_natCast]
    have e2 : exp + ((bitLength sig : Int) - 1) - M = exp - z := by omega
    rw [e2]
    have := magnitude_mul_two_pow (exp - z) sig z
    simp only [sub_add_cancel] at this
    simp only [Nat.cast_zero, add_zero]
    rw [← this]
    rfl
  · have e3 : (M : Int) + 1 - bitLength sig = -((bitLength sig - (M + 1) : Nat) : Int) := by omega
    rw [e3, ceil_magnitude]
    set k0 := bitLength sig - (M + 1) with hk0
    have e4 : exp + ((bitLength sig : Int) - 1) - M = exp + k0 := by omega
    rw [e4]
    -- k = k0 or k0+1
    have hc1 : ceilShift sig k0 ≤ 2 ^ (M + 1) := by
      rw [ceilShift_le_iff, ← pow_add]
      have : M + 1 + k0 = bitLength sig := by omega
      rw [this]; exact (lt_two_pow_bitLength sig).le
    have hkge : k0 ≤ k := by
      by_contra hlt
      have hx : k ≤ k0 - 1 := by omega
      have := ceilShift_anti sig hx
      have : 2 ^ (M + 1) ≤ ceilShift sig (k0 - 1) := by
        by_contra hcc
        have hcc' : ceilShift sig (k0 - 1) ≤ 2 ^ (M + 1) - 1 := by omega
        rw [ceilShift_le_iff] at hcc'
        have h5 := two_pow_le_of_bitLength h
        have h6 : 2 ^ (bitLength sig - 1) = 2 ^ (M + 1) * 2 ^ (k0 - 1) := by rw [← pow_add]; congr 1; omega
        have h7 : (2 ^ (M + 1) - 1) * 2 ^ (k0 - 1) < 2 ^ (M + 1) * 2 ^ (k0 - 1) :=
          Nat.mul_lt_mul_of_pos_right (by have := Nat.one_le_two_pow (n := M + 1); omega) (by positivity)
        omega
      omega
    have hhalf : ceilShift sig k = ceilShift (ceilShift sig k0) (k - k0) := by
      rw [ceilShift_ceilShift]; congr 1; omega
    rcases Nat.lt_or_ge (ceilShift sig k0) (2 ^ (M + 1)) with hc | hc
    · have : k = k0 := by
        by_contra hne
        have := h3 k0 (by omega); omega
      subst this; rfl
    · have hceq : ceilShift sig k0 = 2 ^ (M + 1) := by omega
      have hk1 : ceilShift sig (k0 + 1) = 2 ^ M := by
        rw [← ceilShift_ceilShift, hceq]
        simp [ceilShift, pow_succ]
        omega
      have : k = k0 + 1 := by
        have hA : k ≠ k0 := by intro hh; rw [hh] at h2; omega
        by_contra hne
        have := h3 (k0 + 1) (by omega)
        rw [hk1, pow_succ] at this
        have := Nat.one_le_two_pow (n := M)
        omega
      subst this
      rw [hk1, hceq]
      have := magnitude_mul_two_pow (exp + k0) (2 ^ M) 1
      rw [pow_one, ← pow_succ] at this
      push_cast at this ⊢
      rw [← add_assoc, ← this]
      simp [magnitude]

theorem roundUp_mono (M : Nat) {x y : ℚ} (hx : 0 < x) (h : x ≤ y) : roundUp M x ≤ roundUp M y := by
  have hy : 0 < y := hx.trans_le h
  have hlog : Int.log 2 x ≤ Int.log 2 y := Int.log_mono_right hx h
  rcases eq_or_lt_of_le hlog with he | hlt
  · unfold roundUp
    rw [he]
    gcongr
  · have h1 : roundUp M x ≤ 2 ^ (Int.log 2 x + 1) := by
      have hx2 := Int.lt_zpow_succ_log_self (b := 2) (by norm_num) x
      have : ⌈x * 2 ^ ((M : Int) - Int.log 2 x)⌉ ≤ (2 ^ (M + 1) : Int) := by
        rw [Int.ceil_le]
        push_cast at hx2 ⊢
        calc x * 2 ^ ((M : Int) - Int.log 2 x) ≤ 2 ^ (Int.log 2 x + 1) * 2 ^ ((M : Int) - Int.log 2 x) := by gcongr
          _ = 2 ^ (M + 1) := by rw [← zpow_add₀ (by norm_num), ← zpow_natCast]; congr 1; push_cast; ring
      calc roundUp M x ≤ ((2 ^ (M + 1) : Int) : ℚ) * 2 ^ (Int.log 2 x - (M : Int)) := by
            unfold roundUp; gcongr
        _ = 2 ^ (Int.log 2 x + 1) := by
            push_cast
            rw [← zpow_natCast, ← zpow_add₀ (by norm_num)]; congr 1; push_cast; ring
    have h2 : (2 : ℚ) ^ (Int.log 2 x + 1) ≤ 2 ^ (Int.log 2 y) := zpow_le_zpow_right₀ (by norm_num) hlt
    have h3 : (2:ℚ) ^ (Int.log 2 y) ≤ y := by exact_mod_cast Int.zpow_log_le_self (b := 2) (by norm_num) hy
    have h4 : y ≤ roundUp M y := by
      unfold roundUp
      calc y = (y * 2 ^ ((M : Int) - Int.log 2 y)) * 2 ^ (Int.log 2 y - (M : Int)) := by
            rw [mul_assoc, ← zpow_add₀ (by norm_num)]; simp
        _ ≤ _ := by gcongr; exact Int.le_ceil _
    exact h1.trans (h2.trans (h3.trans h4))

/-! ### The word (R136, R145) -/

/-- A larger rounded magnitude never yields a smaller word (R145). -/
theorem roundedWord_mono (f : Format) (hfE : 2 ≤ f.E) (sign : Bool) {sig sig' : Nat} {exp exp' : Int}
    (hs : 0 < sig) (hs' : 0 < sig') (hb : bitLength sig ≤ f.M + 1) (hb' : bitLength sig' ≤ f.M + 1)
    (h : magnitude exp sig ≤ magnitude exp' sig') :
    roundedWord f sign sig exp ≤ roundedWord f sign sig' exp' := by
  have hlog := Int.log_mono_right (b := 2) (magnitude_pos hs exp) h
  rw [log_magnitude hs, log_magnitude hs'] at hlog
  have hp := bitLength_pos hs
  have hp' := bitLength_pos hs'
  have hnf := normal_field_lt hb
  have hE : ((2 ^ f.E : Nat) : Int) = 2 ^ f.E := by push_cast; rfl
  have hE1 : 2 ^ 2 ≤ 2 ^ f.E := Nat.pow_le_pow_right (by norm_num) hfE
  -- normal mantissa in terms of magnitude
  have hnorm : ∀ {g : Nat} {e : Int}, 0 < g → bitLength g ≤ f.M + 1 →
      ((2 ^ f.M + (g - 2 ^ (bitLength g - 1)) * 2 ^ (f.M - (bitLength g - 1)) : Nat) : ℚ)
        = magnitude e g * 2 ^ ((f.M : Int) - (e + ((bitLength g : Int) - 1))) := by
    intro g e hg hgb
    have hle := two_pow_le_of_bitLength hg
    have hgp := bitLength_pos hg
    have h2 : 2 ^ (bitLength g - 1) * 2 ^ (f.M - (bitLength g - 1)) = 2 ^ f.M := by
      rw [← pow_add]; congr 1; omega
    have : 2 ^ f.M + (g - 2 ^ (bitLength g - 1)) * 2 ^ (f.M - (bitLength g - 1)) = g * 2 ^ (f.M - (bitLength g - 1)) := by
      rw [← h2, ← Nat.add_mul]; congr 1; omega
    rw [this, magnitude_mul_zpow]
    have h5 : e + ((f.M : Int) - (e + ((bitLength g : Int) - 1))) = ((f.M - (bitLength g - 1) : Nat) : Int) := by omega
    rw [h5, magnitude, zpow_natCast]; push_cast; rfl
  unfold roundedWord formatWord
  dsimp only
  split
  · rename_i h1
    have hsub := subnormal_field_lt (f := f) (sig := sig) (ef := _) h1
    split
    · simp only [Nat.zero_mul, Nat.add_zero]
      refine Nat.add_le_add_left (Nat.floor_le_floor ?_) _
      have e1 : (f.M : Int) - 1 + (exp + f.bias + ((bitLength sig : Int) - 1)) - ((bitLength sig : Int) - 1)
         = exp + (f.M - 1 + f.bias) := by ring
      have e2 : (f.M : Int) - 1 + (exp' + f.bias + ((bitLength sig' : Int) - 1)) - ((bitLength sig' : Int) - 1)
         = exp' + (f.M - 1 + f.bias) := by ring
      rw [e1, e2, ← magnitude_mul_zpow, ← magnitude_mul_zpow]
      gcongr
    · split
      · have : 2 ^ f.M ≤ (2 ^ f.E - 1) * 2 ^ f.M := Nat.le_mul_of_pos_left _ (by omega)
        omega
      · rename_i h2 _
        have : 2 ^ f.M ≤ (exp' + f.bias + ((bitLength sig' : Int) - 1)).toNat * 2 ^ f.M :=
          Nat.le_mul_of_pos_left _ (by omega)
        omega
  · rename_i h1
    rw [if_neg (by omega : ¬ exp' + f.bias + ((bitLength sig' : Int) - 1) ≤ 0)]
    split
    · rename_i h2
      rw [if_pos (by omega)]
    · rename_i h2
      have hmul : ((exp + f.bias + ((bitLength sig : Int) - 1)).toNat + 1) * 2 ^ f.M =
        (exp + f.bias + ((bitLength sig : Int) - 1)).toNat * 2 ^ f.M + 2 ^ f.M := by ring
      split
      · have : ((exp + f.bias + ((bitLength sig : Int) - 1)).toNat + 1) * 2 ^ f.M ≤ (2 ^ f.E - 1) * 2 ^ f.M :=
          Nat.mul_le_mul_right _ (by omega)
        omega
      · rcases eq_or_lt_of_le hlog with he | hlt
        · have h7 := hnorm (e := exp) hs hb
          have h8 := hnorm (e := exp') hs' hb'
          have h9 : (2 ^ f.M + (sig - 2 ^ (bitLength sig - 1)) * 2 ^ (f.M - (bitLength sig - 1)) : Nat) ≤
             (2 ^ f.M + (sig' - 2 ^ (bitLength sig' - 1)) * 2 ^ (f.M - (bitLength sig' - 1)) : Nat) := by
            have : ((2 ^ f.M + (sig - 2 ^ (bitLength sig - 1)) * 2 ^ (f.M - (bitLength sig - 1)) : Nat) : ℚ) ≤
             ((2 ^ f.M + (sig' - 2 ^ (bitLength sig' - 1)) * 2 ^ (f.M - (bitLength sig' - 1)) : Nat) : ℚ) := by
              rw [h7, h8, he]; gcongr
            exact_mod_cast this
          have h10 : exp + f.bias + ((bitLength sig : Int) - 1) = exp' + f.bias + ((bitLength sig' : Int) - 1) := by omega
          rw [h10]
          omega
        · have : ((exp + f.bias + ((bitLength sig : Int) - 1)).toNat + 1) * 2 ^ f.M ≤ (exp' + f.bias + ((bitLength sig' : Int) - 1)).toNat * 2 ^ f.M :=
            Nat.mul_le_mul_right _ (by omega)
          omega

theorem roundedWord_lt (f : Format) (sign : Bool) {sig : Nat} {exp : Int}
    (hb : bitLength sig ≤ f.M + 1) :
    roundedWord f sign sig exp < 2 ^ (1 + f.E + f.M) := by
  unfold roundedWord
  dsimp only
  have hE : ((2 ^ f.E : Nat) : Int) = 2 ^ f.E := by push_cast; rfl
  split
  · exact formatWord_lt _ (by positivity) (subnormal_field_lt (by assumption))
  · split
    · exact formatWord_lt _ (Nat.sub_lt (by positivity) (by norm_num)) (by positivity)
    · exact formatWord_lt _ (by omega) (normal_field_lt hb)

end Sys2Proof.Machine
end

