-- ==== Sys2Proof/Tests/Slice0.lean ====
section
/-! SUPPORT. Tests of one step each, with results taken from the worked examples and tables of
95_test_vectors.md (the section stands in each comment), words written out from the patterns of 30_encoding.md
R71, ill-formed operands refused by WellFormed, and for each statement of Obligations.lean with hypotheses a
concrete state and operands that meet them. -/

namespace Sys2Proof.Tests

open Sys2Proof.Machine

/-- The state a step ends in, if it answers one. -/
def answered (o : Host.Outcome State Fault Refusal) : Option State :=
  match o with
  | .next s => some s
  | .fault _ => none
  | .refused _ => none

/-- The last response of a step. -/
def answer (o : Host.Outcome State Fault Refusal) : Option Response :=
  (answered o).bind fun s => s.responses.getLast?

/-- A state after reset whose source holds the given byte, count and queue. -/
def source (byte : Byte) (cnt : Nat) (queue : List Byte) : State :=
  { State.reset with src := ⟨byte, cnt⟩, srcIn := queue }

/-- A state after reset whose sink holds the given byte and count. -/
def sink (byte : Byte) (cnt : Nat) : State :=
  { State.reset with snk := ⟨byte, cnt, false⟩ }

/-- A state after reset whose sink is closed. -/
def closedSink : State := { State.reset with snk := ⟨0x00#8, 0, true⟩ }

/-- A format with small widths, used where a preset would make a test long. -/
def tiny : Descriptor := ⟨2, 1, some 1⟩

/-! ### WellFormed refuses each ill-formed operand (95_test_vectors.md section 3.6) -/

theorem test_wellFormed_exponent_width_one : Instr.wellFormed (.encZero ⟨1, 10, some 15⟩ false) = false := by decide
theorem test_wellFormed_exponent_width_negative : Instr.wellFormed (.encInf ⟨-3, 10, some 15⟩ false) = false := by decide
theorem test_wellFormed_mantissa_width_zero : Instr.wellFormed (.encNan ⟨5, 0, some 15⟩) = false := by decide
theorem test_wellFormed_bias_absent : Instr.wellFormed (.decode ⟨5, 10, none⟩) = false := by decide
theorem test_wellFormed_exponent_absent : Instr.wellFormed (.encNum Config.half false none (some 1)) = false := by decide
theorem test_wellFormed_significand_absent : Instr.wellFormed (.encNum Config.half false (some 0) none) = false := by decide
theorem test_wellFormed_significand_zero : Instr.wellFormed (.encNum Config.half false (some 0) (some 0)) = false := by decide
theorem test_wellFormed_smallest_widths : Instr.wellFormed (.encZero ⟨2, 1, some 0⟩ false) = true := by decide

/-! ### Words written out bit by bit from the patterns of R71: op, tag, reserved bit, immediate -/

theorem test_decode_srcNext : decodeTableWord 8 0b00010000 = some .srcNext := by decide
theorem test_decode_snkWrite : decodeTableWord 8 0b00100001 = some (.snkWrite true) := by decide
theorem test_decode_snkFlush : decodeTableWord 8 0b00110000 = some .snkFlush := by decide
theorem test_decode_snkClose : decodeTableWord 8 0b01000000 = some .snkClose := by decide
theorem test_decode_encZero : decodeRequest ⟨0b01010001#8, ⟨Config.half, none, none⟩⟩ = .ok (.encZero Config.half true) := by rfl
theorem test_decode_encInf : decodeRequest ⟨0b01010101#8, ⟨Config.half, none, none⟩⟩ = .ok (.encInf Config.half true) := by rfl
theorem test_decode_encNan : decodeRequest ⟨0b01011000#8, ⟨Config.half, none, none⟩⟩ = .ok (.encNan Config.half) := by rfl
theorem test_decode_encNum : decodeRequest ⟨0b01011100#8, ⟨Config.half, some 4, some 9⟩⟩
    = .ok (.encNum Config.half false (some 4) (some 9)) := by rfl
theorem test_decode_decode : decodeRequest ⟨0b01100000#8, ⟨Config.single, none, none⟩⟩ = .ok (.decode Config.single) := by rfl

/-- One word for each reason of R76 (95_test_vectors.md section 4.6). -/
theorem test_decode_reserved_op : decodeRequest ⟨0x70#8, .idle⟩ = .error .reservedOp := by rfl
theorem test_decode_reserved_bit : decodeRequest ⟨0x52#8, .idle⟩ = .error .reservedBit := by rfl
theorem test_decode_stray_tag : decodeRequest ⟨0x14#8, .idle⟩ = .error .strayTag := by rfl
theorem test_decode_stray_immediate : decodeRequest ⟨0x59#8, .idle⟩ = .error .strayImmediate := by rfl

/-- The next step runs the word that withFetchWord places: an SNK.WRITE of 1 into a fresh sink. -/
theorem test_withFetchWord : (answered (step (State.reset.withFetchWord 8 0x21))).map (fun s => s.snk)
    = some ⟨0x80#8, 1, false⟩ := by decide

/-! ### One step of each command -/

/-- Section 3.1, row 6: one byte is pulled and its bit 7 delivered. -/
theorem test_srcNext_pulls : answered (exec .srcNext (source 0x00#8 0 [0xA5#8, 0x3C#8]))
    = some { source 0xA5#8 7 [0x3C#8] with responses := [.ok (.bit true)] } := by decide

/-- Section 3.1, row 4: an empty source. -/
theorem test_srcNext_empty : answer (exec .srcNext State.reset) = some (.error .io) := by decide

/-- Section 3.2: the third of the bits 1, 0, 1 makes the pending byte A0. -/
theorem test_snkWrite_third_bit : (answered (exec (.snkWrite true) (sink 0x80#8 2))).map (fun s => s.snk)
    = some ⟨0xA0#8, 3, false⟩ := by decide

/-- Section 3.2: the eighth of the bits 1, 0, 1, 0, 0, 1, 0, 1 emits A5. -/
theorem test_snkWrite_eighth_bit : (answered (exec (.snkWrite true) (sink 0xA4#8 7))).map (fun s => (s.snkOut, s.snk))
    = some ([0xA5#8], ⟨0x00#8, 0, false⟩) := by decide

/-- Section 3.2: a flush of 1, 0, 1 emits A0 and the sink stays open. -/
theorem test_snkFlush_pending : (answered (exec .snkFlush (sink 0xA0#8 3))).map (fun s => (s.snkOut, s.snk))
    = some ([0xA0#8], ⟨0x00#8, 0, false⟩) := by decide

/-- Section 3.2: a flush with nothing pending emits nothing. -/
theorem test_snkFlush_nothing : (answered (exec .snkFlush State.reset)).map (fun s => s.snkOut) = some [] := by decide

/-- Section 3.2: a close of 1, 0, 1, 1, 1 emits B8 and closes (source property 1.3). -/
theorem test_snkClose_pending : (answered (exec .snkClose (sink 0xB8#8 5))).map (fun s => (s.snkOut, s.snk.closed))
    = some ([0xB8#8], true) := by decide

/-- Section 3.2: a second close is a StateError. -/
theorem test_snkClose_twice : answer (exec .snkClose closedSink) = some (.error .state) := by decide

/-- Section 3.3: HALF, negative zero. -/
theorem test_encZero_half : (answered (exec (.encZero Config.half true) State.reset)).map (fun s => s.snkOut)
    = some [0x80#8, 0x00#8] := by decide

/-- Section 3.6: an invalid descriptor on a closed sink is an ArgumentError. -/
theorem test_encZero_priority : answer (exec (.encZero ⟨1, 10, some 15⟩ false) closedSink)
    = some (.error .argument) := by decide

/-- Section 3.3: (3, 2, 3), negative infinity, six bits pending. -/
theorem test_encInf_six_bits : (answered (exec (.encInf ⟨3, 2, some 3⟩ true) State.reset)).map (fun s => s.snk)
    = some ⟨0xF0#8, 6, false⟩ := by decide

/-- Section 3.3: HALF, positive infinity. -/
theorem test_encInf_half : (answered (exec (.encInf Config.half false) State.reset)).map (fun s => s.snkOut)
    = some [0x7C#8, 0x00#8] := by decide

/-- Section 3.3: ENC.NAN (3, 2, 3) behind five pending bits emits BB and leaves C0. -/
theorem test_encNan_unaligned : (answered (exec (.encNan ⟨3, 2, some 3⟩) (sink 0xB8#8 5))).map (fun s => (s.snkOut, s.snk))
    = some ([0xBB#8], ⟨0xC0#8, 3, false⟩) := by decide

/-- Section 3.3: the canonical NaN of HALF. -/
theorem test_encNan_half : (answered (exec (.encNan Config.half) State.reset)).map (fun s => s.snkOut)
    = some [0x7E#8, 0x00#8] := by decide

/-- Section 1.1: 0.3125 in SINGLE, the source's own scenario. -/
theorem test_encNum_single : (answered (exec (.encNum Config.single false (some (-4)) (some 5)) State.reset)).map
    (fun s => s.snkOut) = some [0x3E#8, 0xA0#8, 0x00#8, 0x00#8] := by decide

/-- Section 3.4: twelve ones in HALF round up, carry, and overflow to infinity. -/
theorem test_encNum_carry_overflow : (answered (exec (.encNum Config.half false (some 4) (some 4095)) State.reset)).map
    (fun s => s.snkOut) = some [0x7C#8, 0x00#8] := by decide

/-- Section 3.4: a subnormal of HALF whose low bit is truncated. -/
theorem test_round_subnormal : (answered (exec (.encNum Config.half false (some (-25)) (some 3)) State.reset)).map
    (fun s => s.snkOut) = some [0x00#8, 0x01#8] := by decide

/-- Section 3.5: a subnormal of SINGLE with one trailing zero (conflict C1). -/
theorem test_decode_subnormal : answered (exec (.decode Config.single) (source 0x00#8 0 [0x00#8, 0x00#8, 0x00#8, 0x02#8]))
    = some { source 0x02#8 0 [] with responses := [.ok (.value (.number false (-148) 1))] } := by decide

/-- Section 1.7: a NaN of HALF consumes exactly sixteen bits. -/
theorem test_decode_nan : (answered (exec (.decode Config.half) (source 0x00#8 0 [0xFF#8, 0xFF#8, 0x3C#8, 0x00#8]))).map
    (fun s => (s.responses, s.src.cnt, s.srcIn)) = some ([.ok (.value .nan)], 0, [0x3C#8, 0x00#8]) := by decide

/-- Program P3's copy: SNK_OUT goes to the tail of SRC_IN and stays. -/
theorem test_host_copy : (answered (step { State.reset with snkOut := [0x1C#8], moves := [.copy] })).map
    (fun s => (s.srcIn, s.snkOut)) = some ([0x1C#8], [0x1C#8]) := by decide

/-- R215: a reset event reopens the sink; what it leaves in SRC.byte is free. -/
theorem test_host_reset : (answered (step { closedSink with moves := [.reset] })).map (fun s => (s.snk, s.src.cnt))
    = some (⟨0x00#8, 0, false⟩, 0) := by decide

/-! ### Witnesses: the hypotheses of each statement are met, clause by clause -/

theorem witness_DecodeEncodeAgree : decodeRequest ⟨0x21#8, .idle⟩ = .ok (.snkWrite true) := by rfl

theorem witness_UnusedPortsIgnored :
    (0x10#8 ∈ [0x10#8, 0x20#8, 0x21#8, 0x30#8, 0x40#8]) ∧
    (0x60#8 ≠ 0x5C#8 ∧ 0x60#8 ≠ 0x5D#8 ∧ (Ports.mk Config.half none none).fmt = (Ports.mk Config.half (some 1) (some 2)).fmt) := by
  decide

theorem witness_StepRunsDecodedCommand :
    ({ State.reset with moves := [.command ⟨0x10#8, .idle⟩] } : State).moves = .command ⟨0x10#8, .idle⟩ :: [] ∧
    decodeRequest ⟨0x10#8, .idle⟩ = .ok .srcNext := ⟨rfl, rfl⟩

theorem witness_StepRejectsIllegalWord :
    ({ State.reset with moves := [.command ⟨0x61#8, .idle⟩] } : State).moves = .command ⟨0x61#8, .idle⟩ :: [] ∧
    decodeRequest ⟨0x61#8, .idle⟩ = .error .strayImmediate := ⟨rfl, rfl⟩

theorem witness_StepHostQueueMoves :
    ({ State.reset with moves := [.push [0x01#8]] } : State).moves = .push [0x01#8] :: [] ∧
    ({ State.reset with moves := [.take] } : State).moves = .take :: [] ∧
    ({ State.reset with moves := [.remove 0 1] } : State).moves = .remove 0 1 :: [] ∧
    ({ State.reset with moves := [.copy] } : State).moves = .copy :: [] ∧
    State.reset.moves = [] := by decide

theorem witness_StepResetEvent :
    ({ closedSink with moves := [.reset] } : State).moves = .reset :: [] := rfl

theorem witness_OneResponsePerCommand :
    (∃ t, step { State.reset with moves := [.command ⟨0x30#8, .idle⟩] } = .next t) ∧
    (∃ t, step { State.reset with moves := [.take] } = .next t) := ⟨⟨_, rfl⟩, ⟨_, rfl⟩⟩

theorem witness_StepKeepsInvariant :
    (sink 0xFE#8 7).Inv ∧ ∃ t, step { sink 0xFE#8 7 with moves := [.command ⟨0x21#8, .idle⟩] } = .next t :=
  ⟨by decide, ⟨_, rfl⟩⟩

theorem witness_ClosedFlagOnlyByCloseAndReset_sets :
    ∃ t, step { State.reset with moves := [.command ⟨0x40#8, .idle⟩] } = .next t ∧
      State.reset.snk.closed = false ∧ t.snk.closed = true := ⟨_, rfl, rfl, rfl⟩

theorem witness_ClosedFlagOnlyByCloseAndReset_clears :
    ∃ t, step { closedSink with moves := [.reset] } = .next t ∧
      closedSink.snk.closed = true ∧ t.snk.closed = false := ⟨_, rfl, rfl, rfl⟩

theorem witness_CommandsConsumeAndAppend :
    ∃ t, exec .srcNext (source 0x00#8 0 [0xA5#8]) = .next t := ⟨_, rfl⟩

theorem witness_CommandTouchesOneStream_source :
    ∃ t, exec (.decode tiny) (source 0x0F#8 4 []) = .next t ∧ ∃ fmt, Instr.decode tiny = .decode fmt :=
  ⟨_, rfl, _, rfl⟩

theorem witness_CommandTouchesOneStream_sink :
    ∃ t, exec (.snkWrite true) State.reset = .next t ∧
      (Instr.snkWrite true ≠ .srcNext ∧ ∀ fmt, Instr.snkWrite true ≠ .decode fmt) :=
  ⟨_, rfl, by simp, by simp⟩

theorem witness_DeliveredBitsUnobservable :
    SameArchitecturalState { source 0xFF#8 1 [] with moves := [.command ⟨0x10#8, .idle⟩] }
      { source 0x01#8 1 [] with moves := [.command ⟨0x10#8, .idle⟩] } ∧
    (∃ s', step { source 0xFF#8 1 [] with moves := [.command ⟨0x10#8, .idle⟩] } = .next s') ∧
    (∃ t', step { source 0x01#8 1 [] with moves := [.command ⟨0x10#8, .idle⟩] } = .next t') :=
  ⟨⟨rfl, by decide, rfl, rfl, rfl, rfl, rfl, rfl⟩, ⟨_, rfl⟩, ⟨_, rfl⟩⟩

theorem witness_ArgumentErrorExactly :
    (¬ (Instr.decode ⟨1, 1, some 0⟩).WellFormed) ∧ (Instr.decode ⟨2, 1, some 0⟩).WellFormed := by decide

theorem witness_ClosedSinkStateError :
    Instr.snkFlush.WellFormed ∧ (Instr.snkFlush ≠ .srcNext ∧ ∀ fmt, Instr.snkFlush ≠ .decode fmt) ∧
    closedSink.snk.closed = true := ⟨rfl, ⟨by simp, by simp⟩, rfl⟩

theorem witness_ExceptionsArePrecise_argument :
    ∃ t, exec (.encNan ⟨5, 0, some 15⟩) State.reset = .next t ∧
      t.responses = State.reset.responses ++ [.error .argument] := ⟨_, rfl, rfl⟩

theorem witness_ExceptionsArePrecise_state :
    ∃ t, exec (.snkWrite false) closedSink = .next t ∧
      t.responses = closedSink.responses ++ [.error .state] := ⟨_, rfl, rfl⟩

theorem witness_ExceptionsArePrecise_io_srcNext :
    ∃ t, exec .srcNext State.reset = .next t ∧ t.responses = State.reset.responses ++ [.error .io] :=
  ⟨_, rfl, rfl⟩

theorem witness_ExceptionsArePrecise_io_decode :
    ∃ t, exec (.decode tiny) (source 0x07#8 3 []) = .next t ∧
      t.responses = (source 0x07#8 3 []).responses ++ [.error .io] := ⟨_, rfl, rfl⟩

theorem witness_IOErrorExactly :
    (∃ t, exec .srcNext State.reset = .next t) ∧ State.reset.src.cnt = 0 ∧ State.reset.srcIn = [] ∧
    (source 0x07#8 3 []).src.cnt + 8 * (source 0x07#8 3 []).srcIn.length < 1 + 2 + 1 :=
  ⟨⟨_, rfl⟩, rfl, rfl, by decide⟩

theorem witness_SrcNextDeliversNextBit :
    (source 0xA5#8 1 []).src.cnt = 0 + 1 ∧ (source 0xA5#8 7 []).src.cnt = 6 + 1 ∧
    ((source 0x00#8 0 [0xA5#8]).src.cnt = 0 ∧ (source 0x00#8 0 [0xA5#8]).srcIn = 0xA5#8 :: []) ∧
    (State.reset.src.cnt = 0 ∧ State.reset.srcIn = []) := by decide

theorem witness_SourceDeliversInOrder :
    (source 0xA5#8 1 [0x80#8]).sourceBits = true :: [true, false, false, false, false, false, false, false] := by
  decide

/-- No bit, every bit, and one bit too many. -/
theorem witness_ReadingAdvancesCursor :
    (source 0xA5#8 7 [0x80#8]).src.Inv ∧
    0 ≤ (source 0xA5#8 7 [0x80#8]).src.cnt + 8 * (source 0xA5#8 7 [0x80#8]).srcIn.length ∧
    15 ≤ (source 0xA5#8 7 [0x80#8]).src.cnt + 8 * (source 0xA5#8 7 [0x80#8]).srcIn.length ∧
    (source 0xA5#8 7 [0x80#8]).src.cnt + 8 * (source 0xA5#8 7 [0x80#8]).srcIn.length < 16 := by decide

theorem witness_SnkWriteAppendsBit :
    closedSink.snk.closed = true ∧
    ((sink 0xFC#8 6).snk.closed = false ∧ (sink 0xFC#8 6).snk.cnt < 7) ∧
    ((sink 0xFE#8 7).snk.closed = false ∧ (sink 0xFE#8 7).snk.cnt = 7) := by decide

theorem witness_SinkKeepsBitOrder : (sink 0xFE#8 7).Inv ∧ (sink 0xFE#8 7).snk.closed = false := by decide

theorem witness_SnkFlushEmitsPendingByte :
    ((sink 0x80#8 1).snk.closed = false ∧ 0 < (sink 0x80#8 1).snk.cnt) ∧
    (State.reset.snk.closed = false ∧ State.reset.snk.cnt = 0) := by decide

theorem witness_SnkCloseEmitsAndCloses :
    ((sink 0xFE#8 7).snk.closed = false ∧ 0 < (sink 0xFE#8 7).snk.cnt) ∧
    (State.reset.snk.closed = false ∧ State.reset.snk.cnt = 0) := by decide

theorem witness_FlushPadsWithZeros :
    (Instr.snkFlush = .snkFlush ∨ Instr.snkFlush = .snkClose) ∧ (sink 0xFE#8 7).Inv ∧
    (sink 0xFE#8 7).snk.closed = false := by decide

theorem witness_EncZeroWritesZeroPattern :
    Descriptor.wellFormed ⟨1, 1, some 0⟩ = false ∧ 2 ≤ 2 ∧ 1 ≤ 1 ∧ closedSink.snk.closed = true ∧
    (sink 0xFE#8 7).Inv ∧ (sink 0xFE#8 7).snk.closed = false := by decide

theorem witness_EncInfWritesInfinityPattern :
    Descriptor.wellFormed ⟨2, 0, some 0⟩ = false ∧ 2 ≤ 2 ∧ 1 ≤ 1 ∧ closedSink.snk.closed = true ∧
    State.reset.Inv ∧ State.reset.snk.closed = false := by decide

theorem witness_EncNanWritesCanonicalNan :
    Descriptor.wellFormed ⟨2, 1, none⟩ = false ∧ 2 ≤ 2 ∧ 1 ≤ 1 ∧ closedSink.snk.closed = true ∧
    State.reset.Inv ∧ State.reset.snk.closed = false := by decide

theorem witness_EncWritesExactlyOneWord :
    (Instr.encNum tiny true (some 0) (some 1)).WellFormed ∧ (Instr.encZero tiny true).WellFormed ∧
    (Instr.encInf tiny true).WellFormed ∧ (Instr.encNan tiny).WellFormed ∧ State.reset.Inv ∧
    State.reset.snk.closed = false := by decide

theorem witness_EncNumReportsNothing :
    (Instr.encNum tiny true (some 9) (some 7)).WellFormed ∧ State.reset.snk.closed = false := by decide

theorem witness_IntegerPrimitives : 0 < 1 ∧ bitLength 1 - 1 < 1 := by decide

/-- Eleven bits fit HALF, twelve do not (95_test_vectors.md section 4.4). -/
theorem witness_RoundHalvesUntilItFits : bitLength 2047 ≤ 10 + 1 ∧ 10 + 1 < bitLength 2048 := by decide

/-- Section 4.4: 2049 gives `c = 1025`, 4095 gives `c = 2^11`. -/
theorem witness_RoundClosedForm :
    10 + 1 < bitLength 2049 ∧ (2049 + 2 ^ 1 - 1) / 2 ^ 1 < 2 ^ (10 + 1) ∧
    10 + 1 < bitLength 4095 ∧ (4095 + 2 ^ 1 - 1) / 2 ^ 1 = 2 ^ (10 + 1) := by decide

/-- HALF, `1 * 2^-25`: `ef = -10`, `M + ef = 0`. -/
theorem witness_EncNumUnderflowsToZero :
    2 ≤ 5 ∧ 1 ≤ 10 ∧ 0 < 1 ∧ State.reset.Inv ∧ State.reset.snk.closed = false ∧
    (roundSignificand 10 1 (-25)).2 + 15 + ((bitLength (roundSignificand 10 1 (-25)).1 : Int) - 1) ≤ 0 ∧
    10 + ((roundSignificand 10 1 (-25)).2 + 15 + ((bitLength (roundSignificand 10 1 (-25)).1 : Int) - 1)) ≤ 0 := by
  decide

/-- HALF, `3 * 2^-25`: `ef = -9`, `M + ef = 1`; and `2047 * 2^-25`: `ef = 0`. -/
theorem witness_EncNumWritesSubnormal :
    State.reset.Inv ∧ State.reset.snk.closed = false ∧
    1 ≤ 10 + ((roundSignificand 10 3 (-25)).2 + 15 + ((bitLength (roundSignificand 10 3 (-25)).1 : Int) - 1)) ∧
    (roundSignificand 10 2047 (-25)).2 + 15 + ((bitLength (roundSignificand 10 2047 (-25)).1 : Int) - 1) ≤ 0 ∧
    (roundSignificand 10 3 (-25)).2 + 15 + ((bitLength (roundSignificand 10 3 (-25)).1 : Int) - 1) ≤ 0 ∧
    1 ≤ 10 + ((roundSignificand 10 2047 (-25)).2 + 15
      + ((bitLength (roundSignificand 10 2047 (-25)).1 : Int) - 1)) := by
  decide

/-- HALF, `1 * 2^16`: `ef = 31 = 2^5 - 1`. -/
theorem witness_EncNumOverflowsToInfinity :
    2 ≤ 5 ∧ 1 ≤ 10 ∧ 0 < 1 ∧ State.reset.Inv ∧ State.reset.snk.closed = false ∧
    0 < (roundSignificand 10 1 16).2 + 15 + ((bitLength (roundSignificand 10 1 16).1 : Int) - 1) ∧
    2 ^ 5 - 1 ≤ (roundSignificand 10 1 16).2 + 15 + ((bitLength (roundSignificand 10 1 16).1 : Int) - 1) := by
  decide

/-- HALF, `1 * 2^-14`: `ef = 1`; and `2047 * 2^5`: `ef = 30 = 2^5 - 2`. -/
theorem witness_EncNumWritesNormal :
    State.reset.Inv ∧ State.reset.snk.closed = false ∧
    (roundSignificand 10 1 (-14)).2 + 15 + ((bitLength (roundSignificand 10 1 (-14)).1 - 1 : Nat) : Int) = 1 ∧
    (roundSignificand 10 2047 5).2 + 15 + ((bitLength (roundSignificand 10 2047 5).1 - 1 : Nat) : Int)
      = 2 ^ 5 - 2 := by decide

/-- One operand of HALF in each row of R136, at the rows' edges: `ef` is -10, 0, 1 and 31. -/
theorem witness_EncNumClosedForm :
    2 ≤ 5 ∧ 1 ≤ 10 ∧ State.reset.Inv ∧ State.reset.snk.closed = false ∧
    (roundSignificand 10 1 (-25)).2 + 15 + ((bitLength (roundSignificand 10 1 (-25)).1 - 1 : Nat) : Int) = -10 ∧
    (roundSignificand 10 2047 (-25)).2 + 15 + ((bitLength (roundSignificand 10 2047 (-25)).1 - 1 : Nat) : Int) = 0 ∧
    (roundSignificand 10 1 (-14)).2 + 15 + ((bitLength (roundSignificand 10 1 (-14)).1 - 1 : Nat) : Int) = 1 ∧
    (roundSignificand 10 4095 4).2 + 15 + ((bitLength (roundSignificand 10 4095 4).1 - 1 : Nat) : Int) = 31 := by
  decide

/-- Section 3.4: `5 * 2^-4 = 10 * 2^-5`. -/
theorem witness_EncNumDependsOnValueOnly :
    Config.single.wellFormed = true ∧ 0 < 5 ∧ 0 < 10 ∧ State.reset.Inv ∧ magnitude (-4) 5 = magnitude (-5) 10 :=
  ⟨by decide, by decide, by decide, by decide, by norm_num [magnitude]⟩

theorem witness_EncNumMonotone :
    2 ≤ 5 ∧ 1 ≤ 10 ∧ 0 < 2049 ∧ 0 < 2050 ∧ State.reset.Inv ∧ State.reset.snk.closed = false ∧
    magnitude 0 2049 ≤ magnitude 0 2050 :=
  ⟨by decide, by decide, by decide, by decide, by decide, by decide, by norm_num [magnitude]⟩

/-- HALF is two bytes; Numbers with `ef` at the end of each row of R136: -10, 0, 1 and 31. -/
theorem witness_EncodedBytesAreBigEndian :
    2 ≤ 5 ∧ 1 ≤ 10 ∧ 1 + 5 + 10 = 8 * 2 ∧ State.reset.Inv ∧ State.reset.snk.closed = false ∧
    State.reset.snk.cnt = 0 ∧
    (roundSignificand 10 1 (-25)).2 + 15 + ((bitLength (roundSignificand 10 1 (-25)).1 - 1 : Nat) : Int) = -10 ∧
    (roundSignificand 10 2047 (-25)).2 + 15 + ((bitLength (roundSignificand 10 2047 (-25)).1 - 1 : Nat) : Int) = 0 ∧
    (roundSignificand 10 1 (-14)).2 + 15 + ((bitLength (roundSignificand 10 1 (-14)).1 - 1 : Nat) : Int) = 1 ∧
    (roundSignificand 10 4095 4).2 + 15 + ((bitLength (roundSignificand 10 4095 4).1 - 1 : Nat) : Int) = 31 := by
  decide

/-- (2, 1, 1): the patterns 0110, 0111, 0000, 0001, 0010 and 0101 of section 4.1, at the head of a source. -/
theorem witness_DecodeInfinityOrNan :
    2 ≤ 2 ∧ 1 ≤ 1 ∧ 0 < 2 ^ 1 ∧ 1 < 2 ^ 1 ∧
    (source 0x06#8 4 []).sourceBits = false :: (List.replicate 2 true ++ msbFirst 0 1) ++ [] ∧
    (source 0x07#8 4 []).sourceBits = false :: (List.replicate 2 true ++ msbFirst 1 1) ++ [] := by decide

theorem witness_DecodeZero :
    2 ≤ 2 ∧ 1 ≤ 1 ∧
    (source 0x08#8 4 []).sourceBits = true :: (List.replicate 2 false ++ List.replicate 1 false) ++ [] := by decide

theorem witness_DecodeSubnormal :
    2 ≤ 2 ∧ 1 ≤ 5 ∧ 1 % 2 = 1 ∧ 1 * 2 ^ 4 < 2 ^ 5 ∧
    (source 0x00#8 0 [0x10#8]).sourceBits = false :: (List.replicate 2 false ++ msbFirst (1 * 2 ^ 4) 5) ++ [] := by
  decide

/-- Exponent fields 1 and `2^E - 2`. -/
theorem witness_DecodeNormal :
    2 ≤ 2 ∧ 1 ≤ 1 ∧ 1 ≤ 1 ∧ 1 ≤ 2 ^ 2 - 2 ∧ 0 < 2 ^ 1 ∧ 0 + 2 ^ 1 = 1 * 2 ^ 1 ∧ 1 % 2 = 1 ∧
    (source 0x02#8 4 []).sourceBits = false :: (msbFirst 1 2 ++ msbFirst 0 1) ++ [] ∧
    2 ≤ 2 ^ 2 - 2 ∧ 1 < 2 ^ 1 ∧ 1 + 2 ^ 1 = 3 * 2 ^ 0 ∧ 3 % 2 = 1 ∧
    (source 0x05#8 4 []).sourceBits = false :: (msbFirst 2 2 ++ msbFirst 1 1) ++ [] := by decide

/-- Exactly `N = 4` bits are enough, three are not. -/
theorem witness_DecodeConsumesExactlyN : 1 + 2 + 1 ≤ (source 0x05#8 4 []).sourceBits.length := by decide

theorem witness_DecodeShortInput :
    (source 0x05#8 3 []).src.cnt + 8 * (source 0x05#8 3 []).srcIn.length < 1 + 2 + 1 := by decide

theorem witness_DecodeReturnsCanonicalNumbers :
    ∃ t, exec (.decode tiny) (source 0x01#8 4 []) = .next t ∧
      t.responses = (source 0x01#8 4 []).responses ++ [.ok (.value (.number false (-1) 1))] := ⟨_, rfl, rfl⟩

/-- The smallest and the largest finite pattern of (2, 1, 1): `1 * 2^-1` and `3 * 2^0`. -/
theorem witness_DecodeResultRange :
    (∃ t, exec (.decode tiny) (source 0x01#8 4 []) = .next t ∧
      t.responses = (source 0x01#8 4 []).responses ++ [.ok (.value (.number false (-1) 1))]) ∧
    (∃ t, exec (.decode tiny) (source 0x05#8 4 []) = .next t ∧
      t.responses = (source 0x05#8 4 []).responses ++ [.ok (.value (.number false 0 3))]) :=
  ⟨⟨_, rfl, rfl⟩, ⟨_, rfl, rfl⟩⟩

theorem witness_DecodeIsLossless :
    (source 0x0B#8 4 []).sourceBits = wordBits 2 1 (formatWord 2 1 true 1 1) ++ [] ∧
    formatWord 2 1 true 1 1 < 2 ^ (1 + 2 + 1) ∧
    (∃ t, exec (.decode tiny) (source 0x0B#8 4 []) = .next t ∧
      t.responses = (source 0x0B#8 4 []).responses ++ [.ok (.value (.number true (-1) 3))]) ∧
    ExactValue.number true (-1) 3 ≠ .nan :=
  ⟨by decide, by decide, ⟨_, rfl, rfl⟩, by decide⟩

/-- The classes that DecodeIsLossless tells apart: exponent fields 0, 1, `2^E - 2` and `2^E - 1`. -/
theorem witness_DecodeIsLossless_classes :
    (source 0x01#8 4 []).sourceBits = wordBits 2 1 (formatWord 2 1 false 0 1) ++ [] ∧
    (source 0x02#8 4 []).sourceBits = wordBits 2 1 (formatWord 2 1 false 1 0) ++ [] ∧
    (source 0x05#8 4 []).sourceBits = wordBits 2 1 (formatWord 2 1 false 2 1) ++ [] ∧
    (source 0x07#8 4 []).sourceBits = wordBits 2 1 (formatWord 2 1 false 3 1) ++ [] := by decide

/-- Two sources that agree in the first four bits and differ behind them. -/
theorem witness_DecodeDependsOnBitsReadOnly :
    (source 0x00#8 0 [0x5A#8]).sourceBits.take (1 + (2 : Int).toNat + (1 : Int).toNat)
      = (source 0xAB#8 5 []).sourceBits.take (1 + (2 : Int).toNat + (1 : Int).toNat) := by decide

/-- A NaN pattern that collapses, and a pattern that is reproduced. -/
theorem witness_ReencodingReproducesBits :
    2 ≤ 2 ∧ 1 ≤ 1 ∧ 3 < 2 ^ 2 ∧ 1 < 2 ^ 1 ∧
    (source 0x0F#8 4 []).sourceBits = wordBits 2 1 (formatWord 2 1 true 3 1) ++ [] ∧
    (source 0x09#8 4 []).sourceBits = wordBits 2 1 (formatWord 2 1 true 0 1) ++ [] ∧
    State.reset.Inv ∧ State.reset.snk.closed = false := by decide

/-- HALF: `1 * 2^-14` (the smallest normal), `2047 * 2^5` (the largest) and `1 * 2^-24` (the smallest
subnormal). -/
theorem witness_RepresentableRoundTrip :
    1 % 2 = 1 ∧ 2047 % 2 = 1 ∧ State.reset.Inv ∧ State.reset.snk.closed = false ∧
    ((bitLength 1 : Int) - 1 ≤ 10 ∧ 1 ≤ (-14 : Int) + 15 + ((bitLength 1 : Int) - 1)) ∧
    ((bitLength 2047 : Int) - 1 ≤ 10 ∧ (5 : Int) + 15 + ((bitLength 2047 : Int) - 1) ≤ 2 ^ 5 - 2) ∧
    ((-24 : Int) + 15 + ((bitLength 1 : Int) - 1) ≤ 0 ∧
      ((bitLength 1 : Int) - 1) - ((-24 : Int) + 15 + ((bitLength 1 : Int) - 1)) ≤ 10 - 1) := by decide

end Sys2Proof.Tests
end

section
/-! PROOF. The integer primitives bitLength and tz meet the rules R11 and R13. -/

namespace Sys2Proof.Machine

theorem testBit_bitLength_sub_one {n : Nat} (h : 0 < n) : n.testBit (bitLength n - 1) = true := by
  refine Nat.testBit_of_two_pow_le_and_two_pow_add_one_gt (two_pow_le_of_bitLength h) ?_
  rw [Nat.sub_add_cancel (bitLength_pos h)]
  exact lt_two_pow_bitLength n

theorem testBit_of_bitLength_le {n i : Nat} (h : bitLength n ≤ i) : n.testBit i = false :=
  Nat.testBit_lt_two_pow ((bitLength_le_iff n i).1 h)

/-- With `n = g * 2^tz(n)` and `g` odd, one factor of two more than `tz(n)` would have to divide `g`. -/
theorem two_pow_dvd_iff_le_trailingZeros {n : Nat} (t : Nat) (h : 0 < n) :
    2 ^ t ∣ n ↔ t ≤ trailingZeros n := by
  obtain ⟨heq, hodd⟩ := trailingZeros_spec h
  constructor
  · intro hdvd
    by_contra hlt
    have hmore : 2 ^ (trailingZeros n + 1) ∣ n := (Nat.pow_dvd_pow 2 (by omega)).trans hdvd
    rw [pow_succ, ← Nat.dvd_div_iff_mul_dvd (Dvd.intro_left _ heq), ← Nat.shiftRight_eq_div_pow] at hmore
    omega
  · exact fun hle => (Nat.pow_dvd_pow 2 hle).trans (Dvd.intro_left _ heq)

/-- Settles O37: bitLength by its bounds `2^(k-1) ≤ n < 2^k`, tz by the odd part of `n`. -/
theorem integerPrimitives : Obligations.IntegerPrimitives := by
  refine ⟨bitLength_le_iff, fun n h => ⟨testBit_bitLength_sub_one h, fun i hi => ?_⟩,
    fun n t h => two_pow_dvd_iff_le_trailingZeros t h⟩
  exact testBit_of_bitLength_le (by omega)

end Sys2Proof.Machine
end

section
/-! PROOF. ENC.NUM on an open sink: its response and frame (R139), and the bits of total underflow (R132),
overflow (R134) and the normal case (R135), each read off the word of R136. -/

namespace Sys2Proof.Machine

/-! ### The fields of zero, infinity and a normal number as bits -/

theorem wordBits_zero (E M : Nat) (sign : Bool) :
    wordBits E M (formatWord E M sign 0 0) = sign :: (List.replicate E false ++ List.replicate M false) := by
  rw [wordBits_formatWord sign (by positivity) (by positivity), msbFirst_zeros, msbFirst_zeros]

theorem wordBits_infinity (E M : Nat) (sign : Bool) :
    wordBits E M (formatWord E M sign (2 ^ E - 1) 0)
      = sign :: (List.replicate E true ++ List.replicate M false) := by
  rw [wordBits_formatWord sign (Nat.sub_lt (by positivity) (by norm_num)) (by positivity),
    msbFirst_ones, msbFirst_zeros]

/-- The `M` bits of a significand below its leading bit `L` are the field `(v - 2^L) * 2^(M - L)` (R135):
taking the leading bit away changes the aligned significand by `2^M`. -/
theorem bits_below_leading_eq_msbFirst {v M : Nat} (hv : 0 < v) (hb : bitLength v ≤ M + 1) :
    ((List.range M).map fun k : Nat => bitAt v (((bitLength v - 1 : Nat) : Int) - 1 - k))
      = msbFirst ((v - 2 ^ (bitLength v - 1)) * 2 ^ (M - (bitLength v - 1))) M := by
  have hLM : bitLength v - 1 ≤ M := by omega
  have hle := two_pow_le_of_bitLength hv
  generalize bitLength v - 1 = L at hLM hle ⊢
  have halign : ⌊magnitude ((M : Int) - 1 - ((L : Int) - 1)) v⌋₊ = v * 2 ^ (M - L) := by
    rw [floor_magnitude, if_pos (by omega)]
    congr 2
    omega
  have hlead : 2 ^ L * 2 ^ (M - L) = 2 ^ M := pow_mul_pow_sub 2 hLM
  rw [slice_eq_msbFirst, halign, Nat.sub_mul, hlead]
  exact msbFirst_eq_of_mod (Nat.mod_eq_sub_mod (hlead ▸ Nat.mul_le_mul_right _ hle))

/-! ### The cases of the word of R136, by the exponent field `ef` of R131 -/

section exponentField

variable {f : Format} {sig : Nat} {exp ef : Int} (sign : Bool)
  (hef : ef = exp + f.bias + ((bitLength sig : Int) - 1))

include hef

theorem roundedWord_of_underflow (hs : 0 < sig) (h0 : ef ≤ 0) (hM : f.M + ef ≤ 0) :
    roundedWord f sign sig exp = formatWord f.E f.M sign 0 0 := by
  subst hef
  rw [roundedWord, if_pos h0, (subnormal_field_eq_zero_iff hs).2 hM]

theorem roundedWord_of_overflow (h0 : 0 < ef) (hE : 2 ^ f.E - 1 ≤ ef) :
    roundedWord f sign sig exp = formatWord f.E f.M sign (2 ^ f.E - 1) 0 := by
  subst hef
  rw [roundedWord, if_neg (by omega), if_pos hE]

theorem roundedWord_of_normal (h1 : 1 ≤ ef) (hE : ef ≤ 2 ^ f.E - 2) :
    roundedWord f sign sig exp = formatWord f.E f.M sign ef.toNat
      ((sig - 2 ^ (bitLength sig - 1)) * 2 ^ (f.M - (bitLength sig - 1))) := by
  subst hef
  rw [roundedWord, if_neg (by omega), if_neg (by omega)]

/-- On total underflow the magnitude is below the smallest subnormal: its leading bit has weight
`2^(ef - bias)` (R131, R132). -/
theorem magnitude_lt_smallest_subnormal (hs : 0 < sig) (hM : f.M + ef ≤ 0) :
    magnitude exp sig < magnitude (1 - f.bias - f.M) 1 := by
  have hone : magnitude (1 - f.bias - f.M) 1 = ((2 : Nat) : ℚ) ^ (1 - f.bias - f.M) := by simp [magnitude]
  rw [hone, Int.lt_zpow_iff_log_lt (by norm_num) (magnitude_pos hs exp), log_magnitude hs]
  omega

end exponentField

/-- The two conditions of overflow together (R134): more than `E` bits, or `E` bits that are all set. -/
theorem exceeds_or_allOnes_iff (E n : Nat) :
    (E < bitLength n ∨ (bitLength n = E ∧ ∀ i, i < E → n.testBit i = true)) ↔ 2 ^ E - 1 ≤ n := by
  rw [lt_bitLength_iff]
  constructor
  · rintro (hlong | ⟨hlen, hones⟩)
    · omega
    · have hn : n = 2 ^ E - 1 := Nat.eq_of_testBit_eq fun i => by
        rw [Nat.testBit_two_pow_sub_one]
        by_cases hi : i < E
        · simp [hi, hones i hi]
        · simp [hi, testBit_of_bitLength_le (n := n) (i := i) (by omega)]
      exact hn.ge
  · intro hge
    by_cases hlong : 2 ^ E ≤ n
    · exact .inl hlong
    · have hn : n = 2 ^ E - 1 := by omega
      have hlt := lt_two_pow_bitLength n
      have hE : E ≤ bitLength n := (Nat.pow_le_pow_iff_right (by norm_num)).1 (by omega : 2 ^ E ≤ 2 ^ bitLength n)
      exact .inr ⟨le_antisymm ((bitLength_le_iff n E).2 (by omega)) hE, fun i hi => by
        simp [hn, Nat.testBit_two_pow_sub_one, hi]⟩

/-! ### ENC.NUM -/

/-- ENC.NUM with valid operands on an open sink writes the word of R136 and nothing else. -/
theorem exec_encNum_open {E M sig : Nat} (hE : 2 ≤ E) (hM : 1 ≤ M) (hs : 0 < sig) (bias exp : Int)
    (sign : Bool) {s : State} (hi : s.Inv) (ho : s.snk.closed = false) :
    ∃ t, exec (.encNum ⟨E, M, some bias⟩ sign (some exp) (some sig)) s = .next t ∧
      WroteBits (wordBits E M (roundedWord ⟨E, M, bias⟩ sign (roundSignificand M sig exp).1
        (roundSignificand M sig exp).2)) s t := by
  obtain ⟨t, ht, hw⟩ := encodeNumber_open ⟨E, M, bias⟩ sign exp hs hi.2 ho
  exact ⟨_, by rw [exec_encNum_valid hE hM _ _ _ _ hs, ht, Run.andThen_done, finish_done], hw.respond⟩

/-- Settles O36: every case of ENC.NUM only writes to the open sink, and the command then ends OK. -/
theorem encNumReportsNothing : Obligations.EncNumReportsNothing := by
  intro fmt sign exp sig s hwf ho
  obtain ⟨hfmt, hnum⟩ := Bool.and_eq_true_iff.1 hwf
  obtain ⟨E, M, bias, hE, hM, rfl, -⟩ := formatOf_of_wellFormed hfmt
  obtain ⟨e, g, hg, rfl, rfl, -⟩ := numberOf_of_wellFormed hnum
  obtain ⟨t, ht, hframe⟩ := encodeNumber_frame ⟨E, M, bias⟩ sign e g ho
  refine ⟨t.respond (.ok .nothing), ?_, ?_, hframe.closed.trans ho, hframe.src, hframe.srcIn,
    hframe.moves, hframe.draws⟩
  · rw [exec_encNum_valid hE hM _ _ _ _ hg, ht, Run.andThen_done, finish_done]
  · rw [State.respond_responses, hframe.responses]

/-- Settles O40: the rounded magnitude by its leading bit, the bits by the word of zero. -/
theorem encNumUnderflowsToZero : Obligations.EncNumUnderflowsToZero := by
  intro E M sig bias exp sign s hE hM hs hi ho r ef h0 hMef
  have hpos : 0 < r.1 := roundSignificand_pos hs M exp
  refine ⟨magnitude_lt_smallest_subnormal (f := ⟨E, M, bias⟩) rfl hpos hMef, ?_⟩
  have hopen := exec_encNum_open hE hM hs bias exp sign hi ho
  rwa [roundedWord_of_underflow sign rfl hpos h0 hMef, wordBits_zero] at hopen

/-- Settles O42: the conditions on `ef` as one bound, the bits by the word of infinity. -/
theorem encNumOverflowsToInfinity : Obligations.EncNumOverflowsToInfinity := by
  intro E M sig bias exp sign s hE hM hs hi ho r ef h0
  constructor
  · rw [exceeds_or_allOnes_iff]
    have hcast : ((2 ^ E : Nat) : Int) = 2 ^ E := by norm_num
    omega
  · intro hinf
    have hopen := exec_encNum_open hE hM hs bias exp sign hi ho
    rwa [roundedWord_of_overflow sign rfl h0 hinf, wordBits_infinity] at hopen

/-- Settles O43: the word of a normal number, whose mantissa field is the bits below the leading one. -/
theorem encNumWritesNormal : Obligations.EncNumWritesNormal := by
  intro E M sig bias exp sign s hE hM hs hi ho r L ef h1 h2
  have hpos : 0 < r.1 := roundSignificand_pos hs M exp
  have hfits : bitLength r.1 ≤ M + 1 := roundSignificand_bitLength M sig exp
  have hlen := bitLength_pos hpos
  have hbits := bits_below_leading_eq_msbFirst hpos hfits
  refine ⟨by omega, hbits, ?_⟩
  have hef : ef = r.2 + bias + ((bitLength r.1 : Int) - 1) := by omega
  have hfield : ef.toNat < 2 ^ E := by
    have hcast : ((2 ^ E : Nat) : Int) = 2 ^ E := by norm_num
    omega
  have hopen := exec_encNum_open hE hM hs bias exp sign hi ho
  rwa [roundedWord_of_normal (f := ⟨E, M, bias⟩) sign hef h1 h2,
    wordBits_formatWord sign hfield (normal_field_lt hfits), ← hbits] at hopen

end Sys2Proof.Machine
end

section
/-! PROOF. DECODE by the class of the pattern (R163 to R168), the bits it consumes (R169), what it depends on
(R175), and re-encoding what it answers (R172). -/

namespace Sys2Proof.Machine

/-! ### The value of a pattern, by its exponent field -/

theorem patternValue_allOnes (f : Format) (sign : Bool) (m : Nat) :
    patternValue f sign (2 ^ f.E - 1) m = if m = 0 then .infinity sign else .nan := if_pos rfl

theorem patternValue_finite {f : Format} {e : Nat} (h : e ≠ 2 ^ f.E - 1) (sign : Bool) (m : Nat) :
    patternValue f sign e m = finiteValue f sign e m := if_neg h

theorem one_lt_allOnes {E : Nat} (hE : 2 ≤ E) : 1 < 2 ^ E - 1 := by
  have : 2 ^ 2 ≤ 2 ^ E := Nat.pow_le_pow_right (by norm_num) hE
  omega

/-! ### What DECODE does: ill-formed operands, too few bits, enough bits -/

theorem exec_decode_of_not_wellFormed {fmt : Descriptor} (h : fmt.wellFormed = false) (s : State) :
    exec (.decode fmt) s = .next (s.respond (.error .argument)) := by
  rw [exec_eq_finish, commandRun, formatOf_of_not_wellFormed h, requireOperand_none, Run.andThen_raised,
    finish_raised]

section valid

variable {E M : Nat} (hE : 2 ≤ E) (hM : 1 ≤ M) (bias : Int) {s : State}

include hE hM

theorem exec_decode_of_short (h : s.sourceBits.length < 1 + E + M) :
    exec (.decode ⟨E, M, some bias⟩) s
      = .next ((s.afterReading s.sourceBits.length).respond (.error .io)) := by
  rw [State.sourceBits_length] at h ⊢
  rw [exec_decode_valid hE hM, decodeValue_of_short ⟨E, M, bias⟩ h, Run.andThen_raised, finish_raised]

theorem exec_decode_of_fields {sign : Bool} {e m : Nat} {rest : List Bool} (he : e < 2 ^ E) (hm : m < 2 ^ M)
    (h : s.sourceBits = sign :: (msbFirst e E ++ msbFirst m M) ++ rest) :
    exec (.decode ⟨E, M, some bias⟩) s
      = .next ((s.afterReading (1 + E + M)).respond (.ok (.value (patternValue ⟨E, M, bias⟩ sign e m)))) := by
  rw [exec_decode_valid hE hM, decodeValue_of_enough ⟨E, M, bias⟩ he hm h, Run.andThen_done, finish_done]

end valid

/-- `N` bits are the fields of some pattern. -/
theorem exists_fields {E M : Nat} {s : State} (h : 1 + E + M ≤ s.sourceBits.length) :
    ∃ sign e m rest, e < 2 ^ E ∧ m < 2 ^ M ∧
      s.sourceBits = sign :: (msbFirst e E ++ msbFirst m M) ++ rest := by
  rw [State.sourceBits_length] at h
  rcases decodeValue_cases ⟨E, M, 0⟩ s with ⟨sign, e, m, rest, he, hm, hs, -⟩ | ⟨hshort, -⟩
  · exact ⟨sign, e, m, rest, he, hm, hs⟩
  · exact absurd hshort (Nat.not_lt.2 h)

/-- A command gives one response, so two descriptions of its end agree on it. -/
theorem response_unique {i : Instr} {s t u : State} {a b : Response} (hexec : exec i s = .next (u.respond a))
    (hu : u.responses = s.responses) (ht : exec i s = .next t) (hb : t.responses = s.responses ++ [b]) :
    a = b := by
  rw [hexec] at ht
  cases ht
  rw [State.respond_responses, hu] at hb
  simpa using hb

/-! ### The word an Exact Value is encoded as -/

/-- The word the ENC command for a value writes (R126 to R128, R136). -/
def encodedWord (f : Format) : ExactValue → Nat
  | .zero sign => formatWord f.E f.M sign 0 0
  | .infinity sign => formatWord f.E f.M sign (2 ^ f.E - 1) 0
  | .nan => formatWord f.E f.M false (2 ^ f.E - 1) (2 ^ (f.M - 1))
  | .number sign exp sig =>
    let r := roundSignificand f.M sig exp
    roundedWord f sign r.1 r.2

/-- `ENC fmt, value` (R79) on an open sink writes that word and nothing else. -/
theorem exec_encCommand_open {E M : Nat} (hE : 2 ≤ E) (hM : 1 ≤ M) (bias : Int) {v : ExactValue} {s : State}
    (hv : ∀ sign exp sig, v = .number sign exp sig → 0 < sig) (hi : s.Inv) (ho : s.snk.closed = false) :
    ∃ t, exec (encCommand ⟨E, M, some bias⟩ v) s = .next t ∧
      WroteBits (wordBits E M (encodedWord ⟨E, M, bias⟩ v)) s t := by
  cases v with
  | zero sign =>
    obtain ⟨t, ht, hw⟩ := encodeZero_open ⟨E, M, bias⟩ sign hi.2 ho
    exact ⟨_, by rw [encCommand, exec_encZero_valid hE hM, ht, Run.andThen_done, finish_done], hw.respond⟩
  | infinity sign =>
    obtain ⟨t, ht, hw⟩ := encodeInfinity_open ⟨E, M, bias⟩ sign hi.2 ho
    exact ⟨_, by rw [encCommand, exec_encInf_valid hE hM, ht, Run.andThen_done, finish_done], hw.respond⟩
  | nan =>
    obtain ⟨t, ht, hw⟩ := encodeNan_open ⟨E, M, bias⟩ hM hi.2 ho
    exact ⟨_, by rw [encCommand, exec_encNan_valid hE hM, ht, Run.andThen_done, finish_done], hw.respond⟩
  | number sign exp sig => exact exec_encNum_open hE hM (hv _ _ _ rfl) bias exp sign hi ho

/-- A significand that fits is not rounded (R130). -/
theorem encodedWord_number_of_fits {f : Format} {sig : Nat} (h : bitLength sig ≤ f.M + 1) (sign : Bool)
    (exp : Int) : encodedWord f (.number sign exp sig) = roundedWord f sign sig exp := by
  rw [encodedWord, roundSignificand_of_fits h]

/-- The subnormal answer for a mantissa `g * 2^t` is encoded with that mantissa (R166, R133): its exponent field
is at most 0 and the significand is shifted left by `t`. -/
theorem encodedWord_subnormal {f : Format} (sign : Bool) {g t : Nat} (hg : g % 2 = 1) (hm : g * 2 ^ t < 2 ^ f.M) :
    encodedWord f (.number sign (1 - f.bias - f.M + t) g) = formatWord f.E f.M sign 0 (g * 2 ^ t) := by
  have hlen := (bitLength_le_iff _ _).2 hm
  rw [bitLength_mul_two_pow (by omega)] at hlen
  have hshift : (f.M : Int) - 1 + (1 - f.bias - f.M + t + f.bias + ((bitLength g : Int) - 1))
      - ((bitLength g : Int) - 1) = t := by ring
  rw [encodedWord_number_of_fits (by omega), roundedWord, if_pos (by omega), hshift, floor_magnitude,
    if_pos (by omega), Int.toNat_natCast]

/-- The normal answer for `m + 2^M = g * 2^t` is encoded with the fields it came from (R167, R135): its leading
bit is bit `M - t` of `g`, so that the exponent field is `e` again and the bits below it are `m`. -/
theorem encodedWord_normal {f : Format} (sign : Bool) {e m g t : Nat} (h1 : 1 ≤ e) (h2 : e ≤ 2 ^ f.E - 2)
    (hlen : bitLength g + t = f.M + 1) (h : m + 2 ^ f.M = g * 2 ^ t) (hg : g % 2 = 1) :
    encodedWord f (.number sign (e - f.bias - f.M + t) g) = formatWord f.E f.M sign e m := by
  have hpos := bitLength_pos (n := g) (by omega)
  have hef : (e : Int) = e - f.bias - f.M + t + f.bias + ((bitLength g : Int) - 1) := by omega
  have hmax : (e : Int) ≤ 2 ^ f.E - 2 := by
    have hcast : ((2 ^ f.E : Nat) : Int) = 2 ^ f.E := by norm_num
    omega
  have hmant : (g - 2 ^ (bitLength g - 1)) * 2 ^ (f.M - (bitLength g - 1)) = m := by
    rw [Nat.sub_mul, pow_mul_pow_sub 2 (by omega), show f.M - (bitLength g - 1) = t by omega, ← h,
      Nat.add_sub_cancel]
  rw [encodedWord_number_of_fits (by omega), roundedWord_of_normal sign hef (by omega) hmax, hmant,
    Int.toNat_natCast]

/-- Encoding the value of a pattern gives its word back, or the canonical NaN's (R172). -/
theorem encodedWord_patternValue {f : Format} (hE : 2 ≤ f.E) (sign : Bool) {e m : Nat} (he : e < 2 ^ f.E)
    (hm : m < 2 ^ f.M) :
    encodedWord f (patternValue f sign e m) =
      if e = 2 ^ f.E - 1 ∧ m ≠ 0 then formatWord f.E f.M false (2 ^ f.E - 1) (2 ^ (f.M - 1))
      else formatWord f.E f.M sign e m := by
  have hone := one_lt_allOnes hE
  by_cases hall : e = 2 ^ f.E - 1
  · subst hall
    rw [patternValue_allOnes]
    by_cases hz : m = 0 <;> simp [hz, encodedWord]
  · rw [patternValue_finite hall, if_neg (fun h => hall h.1)]
    rcases Nat.eq_zero_or_pos e with rfl | hpos
    · rcases Nat.eq_zero_or_pos m with rfl | hmpos
      · rfl
      · obtain ⟨g, t, hg, rfl⟩ := exists_odd_mul_two_pow hmpos
        rw [finiteValue_subnormal _ _ hg, encodedWord_subnormal sign hg hm]
    · obtain ⟨g, t, hg, hgt⟩ := exists_odd_mul_two_pow (n := m + 2 ^ f.M) (by positivity)
      obtain ⟨hvalue, hlen⟩ := finiteValue_normal f sign hpos.ne' hm hg hgt
      rw [hvalue, encodedWord_normal sign hpos (by omega) hlen hgt hg]

/-! ### The statements -/

/-- Settles O58: DECODE answers the value of the pattern, and its ENC command writes that value's word. -/
theorem reencodingReproducesBits : Obligations.ReencodingReproducesBits := by
  intro E M bias sign e m s u rest hE hM he hm hs hi ho
  rw [wordBits_formatWord sign he hm] at hs
  obtain ⟨t, ht, hw⟩ := exec_encCommand_open hE hM bias (v := patternValue ⟨E, M, bias⟩ sign e m)
    (fun sign' x g hv => by
      obtain ⟨-, hodd, -⟩ := patternValue_number hm hv
      omega) hi ho
  refine ⟨_, t, exec_decode_of_fields hE hM bias he hm hs, ht, ?_⟩
  have hnan : (2 ^ E - 1) * 2 ^ M + 2 ^ (M - 1) = formatWord E M false (2 ^ E - 1) (2 ^ (M - 1)) := by
    simp [formatWord]
  rw [hnan]
  rwa [encodedWord_patternValue hE sign he hm] at hw

/-- Settles O48: the pattern with exponent field `2^E - 1`. -/
theorem decodeInfinityOrNan : Obligations.DecodeInfinityOrNan := by
  intro E M m bias sign s rest hE hM hm hs
  rw [← msbFirst_ones] at hs
  rw [exec_decode_of_fields hE hM bias (Nat.sub_lt (by positivity) (by norm_num)) hm hs,
    patternValue_allOnes ⟨E, M, bias⟩]
  rfl

/-- Settles O49: the pattern with both fields 0. -/
theorem decodeZero : Obligations.DecodeZero := by
  intro E M bias sign s rest hE hM hs
  have hone := one_lt_allOnes hE
  rw [← msbFirst_zeros, ← msbFirst_zeros] at hs
  rw [exec_decode_of_fields hE hM bias (by positivity) (by positivity) hs,
    patternValue_finite (by dsimp only; omega), finiteValue_zero]
  rfl

/-- Settles O50: the pattern with exponent field 0 and the mantissa `g * 2^t`. -/
theorem decodeSubnormal : Obligations.DecodeSubnormal := by
  intro E M g t bias sign s rest hE hM hg hm hs
  have hone := one_lt_allOnes hE
  rw [← msbFirst_zeros] at hs
  refine ⟨?_, (magnitude_mul_two_pow _ _ _).symm⟩
  rw [exec_decode_of_fields hE hM bias (by positivity) hm hs, patternValue_finite (by dsimp only; omega),
    finiteValue_subnormal _ _ hg]
  rfl

/-- Settles O51: the pattern with exponent field `1 .. 2^E - 2`; the two forms of the exponent agree because
`bitLength g + t = M + 1`. -/
theorem decodeNormal : Obligations.DecodeNormal := by
  intro E M e m g t bias sign s rest hE hM h1 h2 hm hgt hg hs
  obtain ⟨hvalue, hlen⟩ := finiteValue_normal ⟨E, M, bias⟩ sign (by omega : e ≠ 0) hm hg hgt
  have hexp : (e : Int) - bias - ((bitLength g : Int) - 1) = e - bias - M + t := by
    dsimp only at hlen
    omega
  refine ⟨?_, hexp, ?_⟩
  · rw [exec_decode_of_fields hE hM bias (by omega) hm hs, patternValue_finite (by dsimp only; omega), hvalue,
      hexp]
    rfl
  · rw [Nat.add_comm, hgt, magnitude_mul_two_pow]

/-- Settles O52: any `N` bits are the fields of a pattern. -/
theorem decodeConsumesExactlyN : Obligations.DecodeConsumesExactlyN := by
  intro E M bias s hE hM hlen
  obtain ⟨sign, e, m, rest, he, hm, hs⟩ := exists_fields hlen
  exact ⟨_, exec_decode_of_fields hE hM bias he hm hs,
    State.sourceBits_afterReading (State.sourceBits_length s ▸ hlen)⟩

/-- Settles O54: a Number can only be the value of a pattern, and then its significand is an odd part. -/
theorem decodeReturnsCanonicalNumbers : Obligations.DecodeReturnsCanonicalNumbers := by
  intro fmt s t sign x g ht hr
  cases hwf : fmt.wellFormed with
  | false => cases response_unique (exec_decode_of_not_wellFormed hwf s) rfl ht hr
  | true =>
    obtain ⟨E, M, bias, hE, hM, rfl, -⟩ := formatOf_of_wellFormed hwf
    by_cases hlen : 1 + E + M ≤ s.sourceBits.length
    · obtain ⟨sign', e, m, rest, he, hm, hs⟩ := exists_fields hlen
      have hvalue := response_unique (exec_decode_of_fields hE hM bias he hm hs) rfl ht hr
      obtain ⟨-, hodd, -⟩ := patternValue_number hm (Result.value.inj (Response.ok.inj hvalue))
      exact hodd
    · cases response_unique (exec_decode_of_short hE hM bias (Nat.lt_of_not_le hlen)) rfl ht hr

/-- Settles O57: the common first `N` bits are the fields both decode, and if one source is short of `N` bits
both are, by the same number. -/
theorem decodeDependsOnBitsReadOnly : Obligations.DecodeDependsOnBitsReadOnly := by
  intro fmt s t htake
  cases hwf : fmt.wellFormed with
  | false =>
    refine ⟨0, .error .argument, Nat.zero_le _, ?_, ?_⟩
    · rw [State.afterReading_zero]
      exact exec_decode_of_not_wellFormed hwf s
    · rw [State.afterReading_zero]
      exact exec_decode_of_not_wellFormed hwf t
  | true =>
    obtain ⟨E, M, bias, hE, hM, rfl, -⟩ := formatOf_of_wellFormed hwf
    simp only [Int.toNat_natCast] at htake ⊢
    have hmin := congrArg List.length htake
    rw [List.length_take, List.length_take] at hmin
    by_cases hlen : 1 + E + M ≤ s.sourceBits.length
    · obtain ⟨sign, e, m, rest, he, hm, hs⟩ := exists_fields hlen
      have ht : t.sourceBits = sign :: (msbFirst e E ++ msbFirst m M) ++ t.sourceBits.drop (1 + E + M) := by
        rw [hs, List.take_left' (by simp; omega)] at htake
        rw [htake, List.take_append_drop]
      exact ⟨1 + E + M, _, le_rfl, exec_decode_of_fields hE hM bias he hm hs,
        exec_decode_of_fields hE hM bias he hm ht⟩
    · have hsame : t.sourceBits.length = s.sourceBits.length := by omega
      refine ⟨s.sourceBits.length, .error .io, by omega, exec_decode_of_short hE hM bias (by omega), ?_⟩
      rw [← hsame]
      exact exec_decode_of_short hE hM bias (by omega)

end Sys2Proof.Machine
end

section
/-! PROOF. The command words: decoding and encoding agree (R71, R78), the legal words (R76), the unused ports
(R72), and the numbers of statuses and tags (R74, R75). -/

namespace Sys2Proof

open Laws.EncodesOwnRow Machine

/-! ### Decoding by rows -/

/-- The command a decoded word stands for is that of a row the word selects (R71). -/
theorem exists_row_of_decodeRequest {r : Request} {i : Instr} (h : decodeRequest r = .ok i) :
    ∃ row ∈ opcodeRows, row.selects r.cmd = true ∧ i = instrOf row.op r := by
  unfold decodeRequest at h
  split at h
  · rename_i row hfind
    have hsel := List.find?_some hfind
    exact ⟨row, List.mem_of_find?_eq_some hfind, hsel, (Except.ok.inj h).symm⟩
  · cases h

/-- A word that selects the row of one operation only decodes to that operation's command, whatever is on the
ports. -/
theorem decodeRequest_of_filter {c : CmdWord} (op : Opcode)
    (h : (opcodeRows.filter fun row => row.selects c).map (fun row => row.op) = [op]) (p : Ports) :
    decodeRequest ⟨c, p⟩ = .ok (instrOf op ⟨c, p⟩) := by
  obtain ⟨row, hrow, rfl⟩ := List.map_eq_singleton_iff.1 h
  have hfind : opcodeRows.find? (fun row => row.selects c) = some row := by
    rw [← List.head?_filter, hrow, List.head?_cons]
  unfold decodeRequest
  rw [hfind]

/-- The law of every command's own row (R71). -/
theorem encodesOwnRow (i : Instr) : Statement i := by
  cases i with
  | srcNext => exact Laws.EncodesOwnRow.srcNext
  | snkWrite b => exact Laws.EncodesOwnRow.snkWrite b
  | snkFlush => exact Laws.EncodesOwnRow.snkFlush
  | snkClose => exact Laws.EncodesOwnRow.snkClose
  | encZero fmt sign => exact Laws.EncodesOwnRow.encZero fmt sign
  | encInf fmt sign => exact Laws.EncodesOwnRow.encInf fmt sign
  | encNan fmt => exact Laws.EncodesOwnRow.encNan fmt
  | encNum fmt sign exp sig => exact Laws.EncodesOwnRow.encNum fmt sign exp sig
  | decode fmt => exact Laws.EncodesOwnRow.decode fmt

/-! ### The one-bit immediate (R70) -/

/-- The immediate stands in bit 0. -/
@[simp] theorem withImmediate_getElem_zero (p : CmdWord) (b : Bool) :
    (withImmediate p b)[0] = (p[0] || b) := by
  simp [withImmediate]

/-- A word is its upper seven bits with its bit 0 as immediate. -/
theorem withImmediate_masked (c : CmdWord) : withImmediate (c &&& 0xFE#8) (c.getLsbD 0) = c := by
  revert c; decide

/-! ### Encoding after decoding and decoding after encoding -/

/-- A command with its port operands (R72) replaced by those on the ports. -/
def Instr.withPorts : Instr → Ports → Instr
  | .srcNext, _ => .srcNext
  | .snkWrite b, _ => .snkWrite b
  | .snkFlush, _ => .snkFlush
  | .snkClose, _ => .snkClose
  | .encZero _ sign, p => .encZero p.fmt sign
  | .encInf _ sign, p => .encInf p.fmt sign
  | .encNan _, p => .encNan p.fmt
  | .encNum _ sign _ _, p => .encNum p.fmt sign p.exp p.sig
  | .decode _, p => .decode p.fmt

/-- The encoder's word for a command decodes to that command with the operands on the ports. -/
theorem decodeRequest_word (i : Instr) (p : Ports) :
    decodeRequest ⟨(encodeInstr i).cmd, p⟩ = .ok (i.withPorts p) := by
  have hop : instrOf (opcodeOf i) ⟨(encodeInstr i).cmd, p⟩ = i.withPorts p := by
    cases i <;> simp [opcodeOf, encodeInstr, instrOf, Instr.withPorts]
  rw [decodeRequest_of_filter (opcodeOf i) (encodesOwnRow i), hop]

/-- The encoder drives the command's own operands. -/
theorem withPorts_encodeInstr (i : Instr) : i.withPorts (encodeInstr i).ports = i := by
  cases i <;> rfl

/-- The encoder's word for the command of a row that `c` selects is `c`: a full mask leaves no other word, and a
row with an immediate takes it from bit 0. -/
theorem encodeInstr_instrOf_cmd {row : Row} (hrow : row ∈ opcodeRows) {r : Request}
    (h : row.selects r.cmd = true) : (encodeInstr (instrOf row.op r)).cmd = r.cmd := by
  have hfull : ∀ p : CmdWord, r.cmd &&& 0xFF#8 = p → p = r.cmd := fun p hp => by
    rw [← hp]; exact BitVec.and_allOnes
  have himm : ∀ p : CmdWord, r.cmd &&& 0xFE#8 = p → withImmediate p (r.cmd.getLsbD 0) = r.cmd :=
    fun p hp => by rw [← hp]; exact withImmediate_masked r.cmd
  simp only [opcodeRows, List.mem_cons, List.not_mem_nil, or_false] at hrow
  rcases hrow with rfl | rfl | rfl | rfl | rfl | rfl | rfl | rfl | rfl
  · exact hfull _ (eq_of_beq h)
  · exact himm _ (eq_of_beq h)
  · exact hfull _ (eq_of_beq h)
  · exact hfull _ (eq_of_beq h)
  · exact himm _ (eq_of_beq h)
  · exact himm _ (eq_of_beq h)
  · exact hfull _ (eq_of_beq h)
  · exact himm _ (eq_of_beq h)
  · exact hfull _ (eq_of_beq h)

/-- Settles O1: the encoder's word selects its own row only, and a selected row determines the word but for the
immediate. -/
theorem decodeEncodeAgree : Obligations.DecodeEncodeAgree := by
  refine ⟨fun i => (decodeRequest_word i _).trans (congrArg _ (withPorts_encodeInstr i)), fun r i h => ?_⟩
  obtain ⟨row, hrow, hsel, rfl⟩ := exists_row_of_decodeRequest h
  exact encodeInstr_instrOf_cmd hrow hsel

/-! ### Legal words, unused ports, codes -/

/-- Whether a request decodes is a matter of its word alone (R71). -/
theorem exists_decodeRequest_iff (r : Request) :
    (∃ i, decodeRequest r = .ok i) ↔ (opcodeRows.find? fun row => row.selects r.cmd).isSome = true := by
  unfold decodeRequest
  cases opcodeRows.find? (fun row => row.selects r.cmd) <;> simp

/-- Settles O2: which of the 256 words select a row. -/
theorem legalCommandWords : Obligations.LegalCommandWords := by
  intro r
  rw [exists_decodeRequest_iff]
  generalize r.cmd = c
  revert c
  decide

/-- Settles O3, word by word. -/
theorem opcodeRowsDisjoint : Obligations.OpcodeRowsDisjoint := by
  unfold Obligations.OpcodeRowsDisjoint
  decide

/-- Only ENC.NUM reads a port besides `fmt` (R72). -/
theorem instrOf_congr_fmt {op : Opcode} (hop : op ≠ .encNum) (c : CmdWord) {p q : Ports} (h : p.fmt = q.fmt) :
    instrOf op ⟨c, p⟩ = instrOf op ⟨c, q⟩ := by
  cases op <;> simp_all [instrOf]

/-- The words of ENC.NUM (R71). -/
theorem encNum_word {row : Row} (hrow : row ∈ opcodeRows) (hop : row.op = .encNum) {c : CmdWord}
    (h : row.selects c = true) : c = 0x5C#8 ∨ c = 0x5D#8 := by
  revert row c
  decide

/-- Settles O4: the five stream words have no operand on a port, and the others are not in ENC.NUM's row. -/
theorem unusedPortsIgnored : Obligations.UnusedPortsIgnored := by
  intro c p q
  constructor
  · intro hc
    simp only [List.mem_cons, List.not_mem_nil, or_false] at hc
    rcases hc with rfl | rfl | rfl | rfl | rfl
    · exact (decodeRequest_word .srcNext p).trans (decodeRequest_word .srcNext q).symm
    · exact (decodeRequest_word (.snkWrite false) p).trans (decodeRequest_word (.snkWrite false) q).symm
    · exact (decodeRequest_word (.snkWrite true) p).trans (decodeRequest_word (.snkWrite true) q).symm
    · exact (decodeRequest_word .snkFlush p).trans (decodeRequest_word .snkFlush q).symm
    · exact (decodeRequest_word .snkClose p).trans (decodeRequest_word .snkClose q).symm
  · intro h0 h1 hfmt
    unfold decodeRequest
    cases hfind : opcodeRows.find? (fun row => row.selects c) with
    | none => rfl
    | some row =>
      have hsel := List.find?_some hfind
      have hop : row.op ≠ .encNum := fun hop =>
        (encNum_word (List.mem_of_find?_eq_some hfind) hop hsel).elim h0 h1
      exact congrArg Except.ok (instrOf_congr_fmt hop c hfmt)

/-- Settles O5: each word is the encoder's for its command. -/
theorem commandWordSamples : Obligations.CommandWordSamples := fun fmt e g =>
  ⟨decodeRequest_word .srcNext _, decodeRequest_word (.snkWrite true) _,
    decodeRequest_word (.encInf fmt true) _, decodeRequest_word (.encNum fmt true e g) _,
    decodeRequest_word (.decode fmt) _⟩

/-- The immediate does not reach bits 3:2 of the word. -/
theorem withImmediate_tag (p : CmdWord) (b : Bool) :
    (withImmediate p b).extractLsb' 2 2 = p.extractLsb' 2 2 := by
  revert p b; decide

/-- The tag stands in bits 3:2 of the ENC command's word (R70, R74). -/
theorem encCommand_tag (fmt : Descriptor) (v : ExactValue) :
    (encodeInstr (encCommand fmt v)).cmd.extractLsb' 2 2 = valueTag v := by
  cases v with
  | zero sign => exact withImmediate_tag _ sign
  | infinity sign => exact withImmediate_tag _ sign
  | nan => exact (by decide : (0x58#8).extractLsb' 2 2 = 0b10#2)
  | number sign exp sig => exact withImmediate_tag _ sign

/-- Settles O6: the codes by their definitions, the tag in the word by `encCommand_tag`. -/
theorem statusAndTagCodes : Obligations.StatusAndTagCodes :=
  ⟨fun _ => rfl, rfl, rfl, rfl, rfl, fun _ => rfl, fun _ => rfl, rfl, fun _ _ _ => rfl, encCommand_tag⟩

end Sys2Proof
end

section
/-! PROOF. The Bit Source: SRC.NEXT on the registers (R90, R94) and on the bits of the source (R50), ReadBits
with enough bits and with too few (R96, R99). -/

namespace Sys2Proof.Machine

/-! ### SRC.NEXT -/

/-- SRC.NEXT delivers the first bit of the source (R90, R94). -/
theorem exec_srcNext_of_cons {s : State} {b : Bool} {bits : List Bool} (h : s.sourceBits = b :: bits) :
    exec .srcNext s = .next ((s.afterReading 1).respond (.ok (.bit b))) := by
  rw [exec_eq_finish, commandRun, (nextBit_of_cons h).1, Run.andThen_done, finish_done]

/-- SRC.NEXT on an exhausted source (R90, R188). -/
theorem exec_srcNext_of_empty {s : State} (h : s.sourceBits = []) :
    exec .srcNext s = .next (s.respond (.error .io)) := by
  rw [exec_eq_finish, commandRun, nextBit_of_empty h, Run.andThen_raised, finish_raised]

/-- A source is exhausted when no bit is undelivered and SRC_IN is empty (R188). -/
theorem State.sourceBits_eq_nil_iff (s : State) : s.sourceBits = [] ↔ s.src.cnt = 0 ∧ s.srcIn = [] := by
  rw [← List.length_eq_zero_iff, State.sourceBits_length, Nat.add_eq_zero_iff,
    ← List.length_eq_zero_iff (l := s.srcIn)]
  omega

/-- Settles O25: the cursor moves over the bit delivered. -/
theorem sourceDeliversInOrder : Obligations.SourceDeliversInOrder := fun _ _ _ h =>
  ⟨exec_srcNext_of_cons h, (nextBit_of_cons h).2⟩

/-- With undelivered bits the first bit of the source is the highest of them. -/
theorem State.sourceBits_of_undelivered {s : State} {n : Nat} (h : s.src.cnt = n + 1) :
    ∃ bits, s.sourceBits = s.src.byte.getLsbD n :: bits :=
  ⟨_, by rw [State.sourceBits, BitSource.undelivered, h, msbFirst_succ]; rfl⟩

/-- With none it is bit 7 of the head of SRC_IN. -/
theorem State.sourceBits_of_pull {s : State} {b : Byte} {rest : List Byte} (hc : s.src.cnt = 0)
    (hq : s.srcIn = b :: rest) : ∃ bits, s.sourceBits = b.getLsbD 7 :: bits :=
  ⟨_, by
    rw [State.sourceBits, BitSource.undelivered, hc, hq, List.flatMap_cons, byteBits, msbFirst_succ b.toNat 7]
    rfl⟩

/-- Settles O24: the first bit of the source, and the registers after one bit, in each of the three cases. -/
theorem srcNextDeliversNextBit : Obligations.SrcNextDeliversNextBit := by
  refine ⟨decodeRequest_word .srcNext, fun s => ⟨fun n hn => ?_, fun b rest hc hq => ?_, fun hc hq => ?_⟩⟩
  · obtain ⟨bits, hbits⟩ := State.sourceBits_of_undelivered hn
    have hk : bytesPulled 1 (n + 1) = 0 := by unfold bytesPulled; omega
    rw [exec_srcNext_of_cons hbits]
    simp [State.afterReading, hn, hk, State.respond]
  · obtain ⟨bits, hbits⟩ := State.sourceBits_of_pull hc hq
    rw [exec_srcNext_of_cons hbits]
    simp [State.afterReading, hc, hq, bytesPulled, State.respond]
  · exact exec_srcNext_of_empty ((State.sourceBits_eq_nil_iff s).2 ⟨hc, hq⟩)

/-! ### ReadBits -/

/-- The state when every bit has been read (R99, R170): SRC.byte is the last byte pulled. -/
theorem State.afterReading_available (s : State) : s.afterReading (s.src.cnt + 8 * s.srcIn.length)
    = { s with src := ⟨s.srcIn.getLastD s.src.byte, 0⟩, srcIn := [] } := by
  have hk : bytesPulled (s.src.cnt + 8 * s.srcIn.length) s.src.cnt = s.srcIn.length := by
    unfold bytesPulled; omega
  simp [State.afterReading, hk]

/-- ReadBits gives the number whose bits it read (R62, R96). -/
theorem readBits_of_take {s : State} {n v : Nat} (hn : n ≤ s.src.cnt + 8 * s.srcIn.length) (hv : v < 2 ^ n)
    (htake : s.sourceBits.take n = msbFirst v n) : readBits n s = .done v (s.afterReading n) := by
  rw [readBits, readBitsFrom_eq_readLoop, readLoop_of_enough _ _ _ _ hn, htake, foldl_value _ _ _ hv,
    Nat.zero_mul, Nat.zero_add]

/-- Settles O26: enough bits stand for a number, which the loop folds up; too few are all consumed. -/
theorem readingAdvancesCursor : Obligations.ReadingAdvancesCursor := by
  intro s n hinv
  constructor
  · intro hn
    obtain ⟨v, hv, hbits⟩ := exists_msbFirst (s.sourceBits.take n)
    rw [List.length_take_of_le (State.sourceBits_length s ▸ hn)] at hv hbits
    refine ⟨v, hv, hbits.symm, readBits_of_take hn hv hbits, State.sourceBits_afterReading hn, rfl, ?_⟩
    have hcnt : s.src.cnt ≤ 7 := hinv
    rw [State.afterReading_cnt, bytesPulled]
    omega
  · intro hn
    rw [readBits, readBitsFrom_eq_readLoop, readLoop_of_short _ _ _ _ hn, State.afterReading_available]

end Sys2Proof.Machine
end

section
/-! PROOF. What every command keeps (R46, R53), and which exception ends which command and what it leaves behind
(R186 to R190, R195), read off the outcomes of a command. -/

namespace Sys2Proof.Machine

/-! ### The end of a command -/

/-- The response with which a command's run ends (R73). -/
def Run.response : Run Result → Response
  | .done r _ => .ok r
  | .raised e _ => .error e

theorem finish_eq_respond (r : Run Result) : finish r = .next (r.final.respond r.response) := by
  cases r <;> rfl

/-- A command's next state is the end of its run with its response. -/
theorem exec_eq_respond (i : Instr) (s : State) :
    exec i s = .next ((commandRun i s).final.respond (commandRun i s).response) := by
  rw [exec_eq_finish, finish_eq_respond]

/-- What the next state of a command is, and what holds of it in every case. -/
theorem exec_next_frame {i : Instr} {s t : State} (h : exec i s = .next t) :
    t = (commandRun i s).final.respond (commandRun i s).response ∧ CommandFrame i s (commandRun i s).final := by
  rw [exec_eq_respond] at h
  exact ⟨(Host.Outcome.next.inj h).symm, (commandRun_cases i s).frame⟩

/-- The response added to the sequence is that of the command's run. -/
theorem response_of_exec {i : Instr} {s t : State} {a : Response} (h : exec i s = .next t)
    (ha : t.responses = s.responses ++ [a]) : (commandRun i s).response = a :=
  response_unique (exec_eq_respond i s) (commandRun_cases i s).frame.responses h ha

theorem not_readsSource_iff (i : Instr) : ¬ ReadsSource i ↔ i ≠ .srcNext ∧ ∀ fmt, i ≠ .decode fmt := by
  simp [ReadsSource]

/-! ### Streams -/

/-- Settles O17, from the frame of a command. -/
theorem commandsConsumeAndAppend : Obligations.CommandsConsumeAndAppend := by
  intro i s t h
  obtain ⟨rfl, hframe⟩ := exec_next_frame h
  exact ⟨hframe.consumed, hframe.kept⟩

/-- Settles O18, from the frame of a command. -/
theorem commandTouchesOneStream : Obligations.CommandTouchesOneStream := by
  intro i s t h
  obtain ⟨rfl, hframe⟩ := exec_next_frame h
  exact ⟨hframe.sink, fun hi => hframe.source ((not_readsSource_iff i).2 hi), hframe.moves, hframe.draws⟩

/-! ### Exceptions -/

/-- A command with operands that fail their check only raises ArgumentError (R186). -/
theorem commandRun_of_not_wellFormed {i : Instr} (hw : ¬ i.WellFormed) (s : State) :
    commandRun i s = .raised .argument s := by
  have hcases := commandRun_cases i s
  generalize commandRun i s = r at hcases ⊢
  cases hcases with
  | argument => rfl
  | closed hw' => exact absurd hw' hw
  | emptySource hi => subst hi; exact absurd rfl hw
  | shortSource fmt hi hw' => exact absurd hw' hw
  | read r n hw' => exact absurd hw' hw
  | wrote t hw' => exact absurd hw' hw
  | closes hi => subst hi; exact absurd rfl hw

/-- A command with valid operands that uses the sink only raises StateError when the sink is closed (R187). -/
theorem commandRun_of_closed {i : Instr} {s : State} (hw : i.WellFormed) (hi : ¬ ReadsSource i)
    (hc : s.snk.closed = true) : commandRun i s = .raised .state s := by
  have hopen : ¬ s.snk.closed = false := by simp [hc]
  have hcases := commandRun_cases i s
  generalize commandRun i s = r at hcases ⊢
  cases hcases with
  | argument hw' => exact absurd hw hw'
  | closed => rfl
  | emptySource hi' => exact absurd (.inl hi') hi
  | shortSource fmt hi' => exact absurd (.inr ⟨fmt, hi'⟩) hi
  | read r n hw' hi' => exact absurd hi' hi
  | wrote t hw' hi' ho => exact absurd ho hopen
  | closes hi' ho => exact absurd ho hopen

theorem response_ne_argument {i : Instr} (hw : i.WellFormed) (s : State) :
    (commandRun i s).response ≠ .error .argument := by
  have hcases := commandRun_cases i s
  generalize commandRun i s = r at hcases ⊢
  cases hcases with
  | argument hw' => exact absurd hw hw'
  | _ => simp [Run.response]

/-- Settles O20. -/
theorem argumentErrorExactly : Obligations.ArgumentErrorExactly := by
  refine fun i s => ⟨fun hw => ?_, fun hw => ?_⟩
  · rw [exec_eq_finish, commandRun_of_not_wellFormed hw, finish_raised]
    rfl
  · refine ⟨_, _, exec_eq_respond i s, ?_, response_ne_argument hw s⟩
    rw [State.respond_responses, (commandRun_cases i s).frame.responses]

/-- Settles O21. -/
theorem closedSinkStateError : Obligations.ClosedSinkStateError := by
  intro i s hw hi hc
  rw [exec_eq_finish, commandRun_of_closed hw ((not_readsSource_iff i).2 hi) hc, finish_raised]
  rfl

/-- Settles O22: of the outcomes of a command those that raise an exception, each with the state it leaves. -/
theorem exceptionsArePrecise : Obligations.ExceptionsArePrecise := by
  intro i s t e h hresp
  have hr := response_of_exec h hresp
  obtain ⟨rfl, -⟩ := exec_next_frame h
  have hcases := commandRun_cases i s
  generalize commandRun i s = r at hcases hr ⊢
  cases hcases with
  | argument hw =>
    cases hr
    exact .inl ⟨rfl, hw, rfl⟩
  | closed _ hi hc =>
    cases hr
    exact .inr (.inl ⟨rfl, hc, (not_readsSource_iff i).1 hi, rfl⟩)
  | emptySource hi =>
    cases hr
    exact .inr (.inr (.inl ⟨rfl, hi, rfl⟩))
  | shortSource fmt hi =>
    cases hr
    refine .inr (.inr (.inr ⟨rfl, ⟨fmt, hi⟩, ?_⟩))
    rw [Run.final, State.afterReading_available]
    exact ⟨rfl, rfl, rfl⟩
  | read => cases hr
  | wrote => cases hr
  | closes => cases hr

/-! ### IOError -/

/-- DECODE is answered IOError only when fewer than `N` bits are available (R170, R188). -/
theorem available_lt_of_decode_io {E M : Nat} (hE : 2 ≤ E) (hM : 1 ≤ M) {bias : Int} {s : State}
    (h : (commandRun (.decode ⟨E, M, some bias⟩) s).response = .error .io) :
    s.src.cnt + 8 * s.srcIn.length < 1 + E + M := by
  by_contra hlen
  rw [← State.sourceBits_length, Nat.not_lt] at hlen
  obtain ⟨sign, e, m, rest, he, hm, hs⟩ := exists_fields hlen
  have hok := exec_decode_of_fields hE hM bias he hm hs
  have hio := response_of_exec hok rfl
  rw [h] at hio
  cases hio

/-- Settles O23: only two outcomes raise IOError, an exhausted source of SRC.NEXT and too few bits for DECODE. -/
theorem ioErrorExactly : Obligations.IOErrorExactly := by
  intro i s t h
  constructor
  · intro hresp
    have hr := response_of_exec h hresp
    have hcases := commandRun_cases i s
    generalize hrun : commandRun i s = r at hcases hr
    cases hcases with
    | argument => cases hr
    | closed => cases hr
    | emptySource hi hbits => exact .inl ⟨hi, (State.sourceBits_eq_nil_iff s).1 hbits⟩
    | shortSource fmt hi hw =>
      subst hi
      obtain ⟨E, M, bias, hE, hM, rfl, -⟩ := formatOf_of_wellFormed hw
      exact .inr ⟨E, M, bias, hE, hM, rfl, available_lt_of_decode_io hE hM (by rw [hrun]; rfl)⟩
    | read => cases hr
    | wrote => cases hr
    | closes => cases hr
  · rintro (⟨rfl, hempty⟩ | ⟨E, M, bias, hE, hM, rfl, hshort⟩)
    · rw [exec_srcNext_of_empty ((State.sourceBits_eq_nil_iff s).2 hempty)] at h
      cases h
      rfl
    · rw [exec_decode_of_short hE hM bias (State.sourceBits_length s ▸ hshort)] at h
      cases h
      rfl

end Sys2Proof.Machine
end

section
/-! PROOF. The Bit Sink: SNK.WRITE on the registers and on the bits written (R91, R95), SNK.FLUSH and SNK.CLOSE
(R92, R93, R98). -/

namespace Sys2Proof.Machine

/-! ### SNK.WRITE -/

/-- WriteBit that leaves the pending byte incomplete (R95). -/
theorem writeBit_of_lt_seven (b : Bool) {s : State} (ho : s.snk.closed = false) (hc : s.snk.cnt < 7) :
    writeBit b s = .done () (s.setSink ⟨setBit s.snk.byte (7 - s.snk.cnt) b, s.snk.cnt + 1, false⟩) := by
  simp [writeBit, requireOpen, ho, show ¬ s.snk.cnt = 7 by omega]

/-- WriteBit that completes the pending byte emits it (R95, R48). -/
theorem writeBit_of_seven (b : Bool) {s : State} (ho : s.snk.closed = false) (hc : s.snk.cnt = 7) :
    writeBit b s = .done () ((memWrite (setBit s.snk.byte (7 - s.snk.cnt) b) s).setSink ⟨0x00#8, 0, false⟩) := by
  simp [writeBit, requireOpen, ho, hc]

theorem exec_snkWrite_of_done {b : Bool} {s t : State} (h : writeBit b s = .done () t) :
    exec (.snkWrite b) s = .next (t.respond (.ok .nothing)) := by
  rw [exec_eq_finish, commandRun, h, Run.andThen_done, finish_done]

/-- Settles O27: the two words, the closed sink, and the two ends of WriteBit on an open one. -/
theorem snkWriteAppendsBit : Obligations.SnkWriteAppendsBit := by
  refine ⟨decodeRequest_word (.snkWrite false), decodeRequest_word (.snkWrite true), fun b s => ⟨fun hcl => ?_,
    fun ho hc => ⟨setBit s.snk.byte (7 - s.snk.cnt) b, fun i hi => ?_, fun hlt => ?_, fun h7 => ?_⟩⟩⟩
  · exact closedSinkStateError (.snkWrite b) s rfl (by simp) hcl
  · exact setBit_getLsbD (by omega) b i hi
  · exact exec_snkWrite_of_done (writeBit_of_lt_seven b ho hlt)
  · exact exec_snkWrite_of_done (writeBit_of_seven b ho h7)

/-- Settles O28. -/
theorem sinkKeepsBitOrder : Obligations.SinkKeepsBitOrder := by
  intro b s hi ho
  obtain ⟨t, ht, hw⟩ := writeBit_open (b := b) hi.2 ho
  exact ⟨_, exec_snkWrite_of_done ht, hw.respond⟩

/-! ### SNK.FLUSH and SNK.CLOSE -/

theorem requireOpen_of_open {s : State} (ho : s.snk.closed = false) : requireOpen s = .done () s := by
  simp [requireOpen, ho]

theorem exec_snkFlush_open {s : State} (ho : s.snk.closed = false) :
    exec .snkFlush s = .next ((flushPending s).respond (.ok .nothing)) := by
  rw [exec_eq_finish, commandRun, requireOpen_of_open ho, Run.andThen_done, finish_done]

theorem exec_snkClose_open {s : State} (ho : s.snk.closed = false) :
    exec .snkClose s = .next ((markClosed (flushPending s)).respond (.ok .nothing)) := by
  rw [exec_eq_finish, commandRun, requireOpen_of_open ho, Run.andThen_done, finish_done]

theorem flushPending_of_pos {s : State} (h : 0 < s.snk.cnt) :
    flushPending s = (memWrite s.snk.byte s).setSink ⟨0x00#8, 0, s.snk.closed⟩ := if_pos h

theorem flushPending_of_zero {s : State} (h : s.snk.cnt = 0) : flushPending s = s :=
  if_neg (by omega)

/-- Settles O29: FlushPending with and without pending bits. -/
theorem snkFlushEmitsPendingByte : Obligations.SnkFlushEmitsPendingByte := by
  refine fun s ho => ⟨fun hpos => ?_, fun hzero => ?_⟩
  · rw [exec_snkFlush_open ho, flushPending_of_pos hpos, ho]
    rfl
  · rw [exec_snkFlush_open ho, flushPending_of_zero hzero]
    rfl

/-- Settles O30: FlushPending with and without pending bits, then the closed flag. -/
theorem snkCloseEmitsAndCloses : Obligations.SnkCloseEmitsAndCloses := by
  refine fun s ho => ⟨fun hpos => ?_, fun hzero => ?_⟩
  · rw [exec_snkClose_open ho, flushPending_of_pos hpos]
    rfl
  · rw [exec_snkClose_open ho, flushPending_of_zero hzero, ← hzero]
    rfl

/-- With nothing pending every bit written is in SNK_OUT (R52). -/
theorem State.sinkBits_of_cnt_zero {s : State} (h : s.snk.cnt = 0) :
    s.sinkBits = s.snkOut.flatMap byteBits := by
  rw [State.sinkBits, BitSink.pending, h, List.take_zero, List.append_nil]

/-- Settles O31: the padding of FlushPending; the closed flag is no written bit. -/
theorem flushPadsWithZeros : Obligations.FlushPadsWithZeros := by
  intro i s hi hinv ho
  have hpad := flushPending_sinkBits hinv.2
  have hout := State.sinkBits_of_cnt_zero (flushPending_cnt s)
  rcases hi with rfl | rfl
  · exact ⟨_, exec_snkFlush_open ho, hpad, hout.symm, flushPending_cnt s⟩
  · exact ⟨_, exec_snkClose_open ho, hpad, hout.symm, flushPending_cnt s⟩

end Sys2Proof.Machine
end

section
/-! PROOF. The rounding step pass by pass (R130) and in closed form (R137). -/

namespace Sys2Proof.Machine

/-- The rounding step makes the least number of passes after which the significand fits (R137). -/
theorem roundSignificand_eq_of_least {M sig k : Nat} (exp : Int) (hfits : ceilShift sig k < 2 ^ (M + 1))
    (hleast : ∀ j < k, 2 ^ (M + 1) ≤ ceilShift sig j) :
    roundSignificand M sig exp = (ceilShift sig k, exp + k) := by
  obtain ⟨k', hround, hfits', hleast'⟩ := roundSignificand_spec M sig exp
  rcases Nat.lt_trichotomy k' k with hlt | rfl | hlt
  · exact absurd hfits' (Nat.not_lt.2 (hleast k' hlt))
  · exact hround
  · exact absurd hfits (Nat.not_lt.2 (hleast' k hlt))

/-- Half of `sig` plus the dropped bit is `ceil(sig / 2)`. -/
theorem half_add_dropped_bit (sig : Nat) : sig / 2 + sig % 2 = ceilShift sig 1 := by
  rw [ceilShift, pow_one]
  omega

/-- Settles O38: a significand that does not fit needs one pass more than `ceil(sig / 2)`. -/
theorem roundHalvesUntilItFits : Obligations.RoundHalvesUntilItFits := by
  refine fun M sig exp => ⟨fun h => roundSignificand_of_fits h exp, fun h => ?_⟩
  rw [half_add_dropped_bit]
  obtain ⟨k, hround, hfits, hleast⟩ := roundSignificand_spec M (ceilShift sig 1) (exp + 1)
  simp only [ceilShift_ceilShift, Nat.add_comm 1] at hround hfits hleast
  have hmore : ∀ j < k + 1, 2 ^ (M + 1) ≤ ceilShift sig j := fun j hj => by
    cases j with
    | zero => rw [ceilShift_zero]; exact (lt_bitLength_iff sig (M + 1)).1 h
    | succ j => exact hleast j (by omega)
  rw [hround, roundSignificand_eq_of_least exp hfits hmore, Nat.cast_add, Nat.cast_one, Int.add_assoc,
    Int.add_comm 1]

theorem two_pow_le_ceilShift {sig a j : Nat} (h : 2 ^ (a + j) ≤ sig) : 2 ^ a ≤ ceilShift sig j := by
  have hceil := (ceilShift_le_iff sig j _).1 le_rfl
  rw [pow_add] at h
  exact Nat.le_of_mul_le_mul_right (h.trans hceil) (by positivity)

/-- Settles O39: `k0` passes leave `c` and no fewer fit; when `c` is `2^(M+1)` one more pass halves it. -/
theorem roundClosedForm : Obligations.RoundClosedForm := by
  intro M sig exp hlong k0 c
  have hle : 2 ^ (bitLength sig - 1) ≤ sig := two_pow_le_of_bitLength (by
    by_contra hzero
    rw [Nat.eq_zero_of_not_pos hzero, bitLength_zero] at hlong
    omega)
  have hleast : ∀ j < k0, 2 ^ (M + 1) ≤ ceilShift sig j := fun j hj =>
    two_pow_le_ceilShift ((Nat.pow_le_pow_right (by norm_num) (by omega)).trans hle)
  have hupper : ceilShift sig k0 ≤ 2 ^ (M + 1) := by
    rw [ceilShift_le_iff, ← pow_add, show M + 1 + k0 = bitLength sig by omega]
    exact (lt_two_pow_bitLength sig).le
  refine ⟨two_pow_le_ceilShift ((Nat.pow_le_pow_right (by norm_num) (by omega)).trans hle), hupper,
    fun hlt => roundSignificand_eq_of_least exp hlt hleast, fun heq => ?_⟩
  have hhalf : ceilShift sig (k0 + 1) = 2 ^ M := by
    rw [← ceilShift_ceilShift, show ceilShift sig k0 = 2 ^ (M + 1) from heq, ← half_add_dropped_bit, pow_succ]
    omega
  have hmore : ∀ j < k0 + 1, 2 ^ (M + 1) ≤ ceilShift sig j := fun j hj => by
    rcases Nat.lt_succ_iff_lt_or_eq.1 hj with hj | rfl
    · exact hleast j hj
    · exact heq.ge
  have hfits : ceilShift sig (k0 + 1) < 2 ^ (M + 1) := by
    rw [hhalf]
    exact Nat.pow_lt_pow_right (by norm_num) (by omega)
  rw [roundSignificand_eq_of_least exp hfits hmore, hhalf, Nat.cast_add, Nat.cast_one, Int.add_assoc]

end Sys2Proof.Machine
end

section
/-! PROOF. The ENC commands: the words they write (R125 to R128), ENC.NUM's subnormal case (R133) and closed form
(R136), what its word depends on (R140, R145), and whole bytes (R63). -/

namespace Sys2Proof.Machine

/-! ### Operands, and the state an ENC command leaves -/

theorem wellFormed_of_le {E M : Nat} (hE : 2 ≤ E) (hM : 1 ≤ M) (bias : Int) :
    (⟨E, M, some bias⟩ : Descriptor).wellFormed = true := by
  have hE' : (2 : Int) ≤ E := by omega
  have hM' : (1 : Int) ≤ M := by omega
  simp [Descriptor.wellFormed, hE', hM']

/-- An ill-formed command changes nothing (R186). -/
theorem exec_of_not_wellFormed {i : Instr} (h : i.wellFormed = false) (s : State) :
    exec i s = .next { s with responses := s.responses ++ [.error .argument] } :=
  (argumentErrorExactly i s).1 (by simp [h])

/-- An Exact Value that ENC takes: a Number's significand is not 0 (R118). -/
def Encodable : ExactValue → Prop
  | .number _ _ sig => 0 < sig
  | _ => True

theorem Encodable.sig_pos {v : ExactValue} (h : Encodable v) (sign : Bool) (exp : Int) (sig : Nat)
    (hv : v = .number sign exp sig) : 0 < sig := by
  subst hv
  exact h

section valid

variable {E M : Nat} (hE : 2 ≤ E) (hM : 1 ≤ M) (bias : Int) {v : ExactValue} (hv : Encodable v)

include hE hM hv

theorem encCommand_wellFormed : (encCommand ⟨E, M, some bias⟩ v).WellFormed := by
  have hwf := wellFormed_of_le hE hM bias
  cases v with
  | zero sign => exact hwf
  | infinity sign => exact hwf
  | nan => exact hwf
  | number sign exp sig =>
    have hsig : 0 < sig := hv
    exact Bool.and_eq_true_iff.2 ⟨hwf, by simp [numberWellFormed, hsig.ne']⟩

/-- An ENC command on a closed sink (R187). -/
theorem exec_encCommand_closed {s : State} (hc : s.snk.closed = true) :
    exec (encCommand ⟨E, M, some bias⟩ v) s = .next { s with responses := s.responses ++ [.error .state] } :=
  closedSinkStateError _ s (encCommand_wellFormed hE hM bias hv) (by cases v <;> simp [encCommand]) hc

/-- An ENC command on an open sink (R125). -/
theorem exec_encCommand_wrote {s : State} (hi : s.Inv) (ho : s.snk.closed = false) :
    ∃ t, exec (encCommand ⟨E, M, some bias⟩ v) s = .next t ∧
      WroteBits (wordBits E M (encodedWord ⟨E, M, bias⟩ v)) s t :=
  exec_encCommand_open hE hM bias hv.sig_pos hi ho

end valid

/-- Without its response a command that wrote bits is `Written`. -/
theorem WroteBits.written {bits : List Bool} {s t : State} (h : WroteBits bits s t) :
    Written bits (s.respond (.ok .nothing)) t :=
  ⟨h.bits_eq, h.cnt, h.emitted, h.kept, h.closed, h.sinkInv, h.src, h.srcIn, h.moves, h.draws, h.responses⟩

/-- The bits written determine the state left (R18). -/
theorem WroteBits.unique {bits : List Bool} {s t u : State} (h : WroteBits bits s t) (k : WroteBits bits s u) :
    t = u :=
  h.written.unique k.written

/-! ### The words of the special variants -/

theorem formatWord_zero (E M : Nat) (sign : Bool) : formatWord E M sign 0 0 = sign.toNat * 2 ^ (E + M) := by
  rw [formatWord, Nat.zero_mul, Nat.add_zero]

theorem formatWord_infinity (E M : Nat) (sign : Bool) :
    formatWord E M sign (2 ^ E - 1) 0 = sign.toNat * 2 ^ (E + M) + (2 ^ E - 1) * 2 ^ M := by
  rw [formatWord, Nat.add_zero]

theorem formatWord_nan (E M : Nat) :
    formatWord E M false (2 ^ E - 1) (2 ^ (M - 1)) = (2 ^ E - 1) * 2 ^ M + 2 ^ (M - 1) := by
  rw [formatWord, Bool.toNat_false, Nat.zero_mul, Nat.zero_add]

theorem msbFirst_two_pow_pred {M : Nat} (hM : 1 ≤ M) :
    msbFirst (2 ^ (M - 1)) M = true :: List.replicate (M - 1) false := by
  obtain ⟨m, rfl⟩ := Nat.exists_eq_add_of_le' hM
  rw [Nat.add_sub_cancel, msbFirst_succ, Nat.testBit_two_pow_self, ← msbFirst_zeros]
  exact congrArg _ (msbFirst_eq_of_mod (by simp))

theorem wordBits_nan (E : Nat) {M : Nat} (hM : 1 ≤ M) :
    wordBits E M (formatWord E M false (2 ^ E - 1) (2 ^ (M - 1)))
      = false :: (List.replicate E true ++ true :: List.replicate (M - 1) false) := by
  rw [wordBits_formatWord false (Nat.sub_lt (by positivity) (by norm_num))
    (Nat.pow_lt_pow_right (by norm_num) (by omega)), msbFirst_ones, msbFirst_two_pow_pred hM]

/-- Settles O32: the word of zero. -/
theorem encZeroWritesZeroPattern : Obligations.EncZeroWritesZeroPattern := by
  refine ⟨fun p => ⟨decodeRequest_word (.encZero p.fmt false) p, decodeRequest_word (.encZero p.fmt true) p⟩,
    fun fmt sign s h => exec_of_not_wellFormed (i := .encZero fmt sign) h s,
    fun E M bias sign s hE hM => ⟨fun hc => ?_, fun hi ho => ?_⟩⟩
  · exact exec_encCommand_closed hE hM bias (v := .zero sign) trivial hc
  · obtain ⟨t, ht, hw⟩ := exec_encCommand_wrote hE hM bias (v := .zero sign) trivial hi ho
    rw [encodedWord, wordBits_zero] at hw
    exact ⟨t, ht, hw, by rw [← formatWord_zero, wordBits_zero]⟩

/-- Settles O33: the word of infinity. -/
theorem encInfWritesInfinityPattern : Obligations.EncInfWritesInfinityPattern := by
  refine ⟨fun p => ⟨decodeRequest_word (.encInf p.fmt false) p, decodeRequest_word (.encInf p.fmt true) p⟩,
    fun fmt sign s h => exec_of_not_wellFormed (i := .encInf fmt sign) h s,
    fun E M bias sign s hE hM => ⟨fun hc => ?_, fun hi ho => ?_⟩⟩
  · exact exec_encCommand_closed hE hM bias (v := .infinity sign) trivial hc
  · obtain ⟨t, ht, hw⟩ := exec_encCommand_wrote hE hM bias (v := .infinity sign) trivial hi ho
    rw [encodedWord, wordBits_infinity] at hw
    exact ⟨t, ht, hw, by rw [← formatWord_infinity, wordBits_infinity]⟩

/-- Settles O34: the word of the canonical NaN. -/
theorem encNanWritesCanonicalNan : Obligations.EncNanWritesCanonicalNan := by
  refine ⟨fun p => decodeRequest_word (.encNan p.fmt) p,
    fun fmt s h => exec_of_not_wellFormed (i := .encNan fmt) h s,
    fun E M bias s hE hM => ⟨fun hc => ?_, fun hi ho => ?_⟩⟩
  · exact exec_encCommand_closed hE hM bias (v := .nan) trivial hc
  · obtain ⟨t, ht, hw⟩ := exec_encCommand_wrote hE hM bias (v := .nan) trivial hi ho
    rw [encodedWord, wordBits_nan E hM] at hw
    exact ⟨t, ht, hw, by rw [← formatWord_nan, wordBits_nan E hM]⟩

/-! ### One word per command -/

theorem encodedWord_lt {f : Format} (hM : 1 ≤ f.M) (v : ExactValue) : encodedWord f v < 2 ^ (1 + f.E + f.M) := by
  have hones : 2 ^ f.E - 1 < 2 ^ f.E := Nat.sub_lt (by positivity) (by norm_num)
  cases v with
  | zero sign => exact formatWord_lt _ (by positivity) (by positivity)
  | infinity sign => exact formatWord_lt _ hones (by positivity)
  | nan => exact formatWord_lt _ hones (Nat.pow_lt_pow_right (by norm_num) (by omega))
  | number sign exp sig => exact roundedWord_lt f sign (roundSignificand_bitLength _ _ _)

/-- Settles O35: each of the four commands is `ENC` of a value, whose word has the three fields. -/
theorem encWritesExactlyOneWord : Obligations.EncWritesExactlyOneWord := by
  intro i E M bias s hi hw hinv ho
  obtain ⟨hfmt, v, hv, rfl⟩ : (⟨E, M, some bias⟩ : Descriptor).wellFormed = true ∧
      ∃ v, Encodable v ∧ i = encCommand ⟨E, M, some bias⟩ v := by
    rcases hi with ⟨sign, rfl⟩ | ⟨sign, rfl⟩ | rfl | ⟨sign, exp, sig, rfl⟩
    · exact ⟨hw, .zero sign, trivial, rfl⟩
    · exact ⟨hw, .infinity sign, trivial, rfl⟩
    · exact ⟨hw, .nan, trivial, rfl⟩
    · obtain ⟨hfmt, hnum⟩ := Bool.and_eq_true_iff.1 hw
      obtain ⟨e, g, hg, rfl, rfl, -⟩ := numberOf_of_wellFormed hnum
      exact ⟨hfmt, .number sign e g, hg, rfl⟩
  obtain ⟨_, _, _, hE, hM, ⟨⟩, -⟩ := formatOf_of_wellFormed hfmt
  obtain ⟨t, ht, hwrote⟩ := exec_encCommand_wrote hE hM bias hv hinv ho
  obtain ⟨sign, efield, mant, he, hm, hword⟩ := exists_formatWord (encodedWord_lt (f := ⟨E, M, bias⟩) hM v)
  dsimp only at he hm hword
  rw [hword, wordBits_formatWord sign he hm] at hwrote
  exact ⟨t, sign, efield, mant, ht, he, hm, hwrote⟩

/-! ### ENC.NUM: subnormals and the closed form -/

theorem roundedWord_of_subnormal {f : Format} {sig : Nat} {exp ef : Int} (sign : Bool)
    (hef : ef = exp + f.bias + ((bitLength sig : Int) - 1)) (h0 : ef ≤ 0) :
    roundedWord f sign sig exp
      = formatWord f.E f.M sign 0 ⌊magnitude (f.M - 1 + ef - (bitLength sig - 1)) sig⌋₊ := by
  subst hef
  rw [roundedWord, if_pos h0]

/-- Settles O41: the word of a subnormal, whose mantissa field is the slice from index `L - ef` downward. -/
theorem encNumWritesSubnormal : Obligations.EncNumWritesSubnormal := by
  intro E M sig bias exp sign s hE hM hs hi ho r L ef h0 h1
  have hindex : (M : Int) - 1 - (L - ef) = M - 1 + ef - L := by ring
  have hopen := exec_encNum_open hE hM hs bias exp sign hi ho
  rwa [roundedWord_of_subnormal (f := ⟨E, M, bias⟩) sign rfl h0,
    wordBits_formatWord sign (by positivity) (subnormal_field_lt (f := ⟨E, M, bias⟩) h0), msbFirst_zeros,
    ← hindex, ← slice_eq_msbFirst] at hopen

/-- The word of a significand that fits, by the four rows of R136. -/
theorem roundedWord_rows {f : Format} {sig : Nat} {exp ef : Int} (sign : Bool) (hs : 0 < sig)
    (hef : ef = exp + f.bias + (bitLength sig - 1 : Nat)) :
    (ef ≤ -f.M → roundedWord f sign sig exp = sign.toNat * 2 ^ (f.E + f.M)) ∧
    (-f.M < ef → ef ≤ 0 → roundedWord f sign sig exp
      = sign.toNat * 2 ^ (f.E + f.M) + ⌊magnitude (f.M - 1 + ef - (bitLength sig - 1 : Nat)) sig⌋₊) ∧
    (1 ≤ ef → ef ≤ 2 ^ f.E - 2 → roundedWord f sign sig exp
      = sign.toNat * 2 ^ (f.E + f.M) + ef.toNat * 2 ^ f.M
        + (sig - 2 ^ (bitLength sig - 1)) * 2 ^ (f.M - (bitLength sig - 1))) ∧
    (1 ≤ ef → 2 ^ f.E - 1 ≤ ef → roundedWord f sign sig exp
      = sign.toNat * 2 ^ (f.E + f.M) + (2 ^ f.E - 1) * 2 ^ f.M) := by
  have hlen := bitLength_pos hs
  have hlead : ((bitLength sig - 1 : Nat) : Int) = (bitLength sig : Int) - 1 := by omega
  rw [hlead] at hef ⊢
  refine ⟨fun h => ?_, fun _ h0 => ?_, fun h1 h2 => ?_, fun h1 h2 => ?_⟩
  · rw [roundedWord_of_underflow sign hef hs (by omega) (by omega), formatWord_zero]
  · rw [roundedWord_of_subnormal sign hef h0, formatWord, Nat.zero_mul, Nat.add_zero]
  · exact roundedWord_of_normal sign hef h1 h2
  · rw [roundedWord_of_overflow sign hef h1 h2, formatWord_infinity]

/-- An exponent field of all ones is positive. -/
theorem one_le_of_allOnes_le {E : Nat} (hE : 2 ≤ E) {ef : Int} (h : 2 ^ E - 1 ≤ ef) : 1 ≤ ef := by
  have hone := one_lt_allOnes hE
  have hcast : ((2 ^ E : Nat) : Int) = 2 ^ E := by norm_num
  omega

/-- Settles O44: the word written, by the rows of R136. -/
theorem encNumClosedForm : Obligations.EncNumClosedForm := by
  intro E M sig bias exp sign s hE hM hs hi ho r L ef
  obtain ⟨t, ht, hw⟩ := exec_encNum_open hE hM hs bias exp sign hi ho
  obtain ⟨hzero, hsub, hnorm, hinf⟩ :=
    roundedWord_rows (f := ⟨E, M, bias⟩) (ef := ef) sign (roundSignificand_pos hs M exp) rfl
  exact ⟨t, _, ht, hw, hzero, hsub, hnorm, fun h => hinf (one_le_of_allOnes_le hE h) h⟩

/-! ### What the word of ENC.NUM depends on -/

/-- A larger magnitude is rounded to a larger one and never yields a smaller word (R145). -/
theorem encodedWord_number_mono {f : Format} (hE : 2 ≤ f.E) (sign : Bool) {sig sig' : Nat} {exp exp' : Int}
    (hs : 0 < sig) (hs' : 0 < sig') (h : magnitude exp sig ≤ magnitude exp' sig') :
    encodedWord f (.number sign exp sig) ≤ encodedWord f (.number sign exp' sig') := by
  refine roundedWord_mono f hE sign (roundSignificand_pos hs _ _) (roundSignificand_pos hs' _ _)
    (roundSignificand_bitLength _ _ _) (roundSignificand_bitLength _ _ _) ?_
  rw [magnitude_roundSignificand hs, magnitude_roundSignificand hs']
  exact roundUp_mono f.M (magnitude_pos hs exp) h

/-- Settles O45: on an open sink equal magnitudes have equal words; a closed one answers StateError to both. -/
theorem encNumDependsOnValueOnly : Obligations.EncNumDependsOnValueOnly := by
  intro fmt sign exp exp' sig sig' s hwf hs hs' hi hmag
  obtain ⟨E, M, bias, hE, hM, rfl, -⟩ := formatOf_of_wellFormed hwf
  have hv : Encodable (.number sign exp sig) := hs
  have hv' : Encodable (.number sign exp' sig') := hs'
  cases hc : s.snk.closed with
  | true => exact (exec_encCommand_closed hE hM bias hv hc).trans (exec_encCommand_closed hE hM bias hv' hc).symm
  | false =>
    have hword : encodedWord ⟨E, M, bias⟩ (.number sign exp sig)
        = encodedWord ⟨E, M, bias⟩ (.number sign exp' sig') :=
      le_antisymm (encodedWord_number_mono hE sign hs hs' hmag.le) (encodedWord_number_mono hE sign hs' hs hmag.ge)
    obtain ⟨t, ht, hw⟩ := exec_encCommand_wrote hE hM bias hv hi hc
    obtain ⟨t', ht', hw'⟩ := exec_encCommand_wrote hE hM bias hv' hi hc
    rw [hword] at hw
    exact ht.trans ((congrArg _ (hw.unique hw')).trans ht'.symm)

/-- Settles O46. -/
theorem encNumMonotone : Obligations.EncNumMonotone := by
  intro E M sig sig' bias exp exp' sign s hE hM hs hs' hi ho hmag
  obtain ⟨t, ht, hw⟩ := exec_encCommand_wrote hE hM bias (v := .number sign exp sig) hs hi ho
  obtain ⟨t', ht', hw'⟩ := exec_encCommand_wrote hE hM bias (v := .number sign exp' sig') hs' hi ho
  exact ⟨t, t', _, _, encodedWord_number_mono hE sign hs hs' hmag, encodedWord_lt (f := ⟨E, M, bias⟩) hM _,
    ht, hw, ht', hw'⟩

/-! ### Whole bytes -/

/-- `s` after an OK command emitted the `n` big-endian bytes of `W` and left nothing pending (R63). -/
def State.emitting (s : State) (n W : Nat) : State :=
  { s with
    snk := ⟨0x00#8, 0, false⟩
    snkOut := s.snkOut ++ (List.range n).map fun k => BitVec.ofNat 8 (W / 2 ^ (8 * (n - 1 - k)))
    responses := s.responses ++ [.ok .nothing] }

/-- An aligned ENC command of `8 * n` bits emits the bytes of its word (R63, R42). -/
theorem exec_encCommand_emitting {E M n : Nat} (hE : 2 ≤ E) (hM : 1 ≤ M) (hN : 1 + E + M = 8 * n) (bias : Int)
    {v : ExactValue} (hv : Encodable v) {s : State} (hi : s.Inv) (ho : s.snk.closed = false)
    (hc : s.snk.cnt = 0) :
    exec (encCommand ⟨E, M, some bias⟩ v) s = .next (s.emitting n (encodedWord ⟨E, M, bias⟩ v)) := by
  obtain ⟨t, ht, hw⟩ := exec_encCommand_wrote hE hM bias hv hi ho
  rw [wordBits, hN, msbFirst_bytes] at hw
  have hstate := hw.written.eq_of_bytes hc
  rw [State.respond_snk, ho] at hstate
  rw [ht, hstate]
  rfl

/-- Settles O47: the word of each command, for ENC.NUM by the rows of R136. -/
theorem encodedBytesAreBigEndian : Obligations.EncodedBytesAreBigEndian := by
  intro E M n bias s hE hM hN hi ho hc fmt emitting
  have hemit : ∀ v, Encodable v → ∀ W, encodedWord ⟨E, M, bias⟩ v = W →
      exec (encCommand fmt v) s = .next (s.emitting n W) := fun v hv W hW =>
    hW ▸ exec_encCommand_emitting hE hM hN bias hv hi ho hc
  refine ⟨fun sign => hemit (.zero sign) trivial _ (formatWord_zero E M sign),
    fun sign => hemit (.infinity sign) trivial _ (formatWord_infinity E M sign),
    hemit .nan trivial _ (formatWord_nan E M), ?_⟩
  intro sign exp sig hs i r L ef
  have hnum := hemit (.number sign exp sig) hs
  obtain ⟨hzero, hsub, hnorm, hinf⟩ :=
    roundedWord_rows (f := ⟨E, M, bias⟩) (ef := ef) sign (roundSignificand_pos hs M exp) rfl
  exact ⟨fun h => hnum _ (hzero h), fun h0 h1 => hnum _ (hsub h0 h1), fun h1 h2 => hnum _ (hnorm h1 h2),
    fun h => hnum _ (hinf (one_le_of_allOnes_le hE h) h)⟩

end Sys2Proof.Machine
end

section
/-! PROOF. DECODE on short input (R170), the range of its Numbers (R176), losslessness (R173), and the round trip of
a representable Number (R144). -/

namespace Sys2Proof.Machine

/-! ### Short input -/

/-- Settles O53. -/
theorem decodeShortInput : Obligations.DecodeShortInput := by
  intro E M bias s hE hM hshort
  rw [← State.sourceBits_length] at hshort
  rw [exec_decode_of_short hE hM bias hshort, State.sourceBits_length, State.afterReading_available]
  rfl

/-! ### Range -/

theorem magnitude_le_magnitude {e e' : Int} {g g' : Nat} (he : e ≤ e') (hg : g ≤ g') :
    magnitude e g ≤ magnitude e' g' := by
  have hpow : (2 : ℚ) ^ e ≤ 2 ^ e' := zpow_le_zpow_right₀ (by norm_num) he
  unfold magnitude
  gcongr

/-- A Number that DECODE answers is an integer of at most `M + 1` bits, scaled by an exponent of the format, with
its `t` trailing zeros trimmed (R166, R167). -/
theorem scaled_of_patternValue_number {f : Format} (hE : 2 ≤ f.E) {sign sign' : Bool} {e m g : Nat} {x : Int}
    (he : e < 2 ^ f.E) (hm : m < 2 ^ f.M) (h : patternValue f sign e m = .number sign' x g) :
    ∃ (y : Int) (t : Nat), x = y + t ∧ 1 - f.bias - f.M ≤ y ∧ y ≤ 2 ^ f.E - 2 - f.bias - f.M ∧
      1 ≤ g * 2 ^ t ∧ g * 2 ^ t < 2 ^ (f.M + 1) := by
  have hcast : ((2 ^ f.E : Nat) : Int) = 2 ^ f.E := by norm_num
  have hone := one_lt_allOnes hE
  have hdouble : 2 ^ (f.M + 1) = 2 ^ f.M * 2 := pow_succ 2 f.M
  obtain ⟨-, hodd, hne, ⟨rfl, t, hmt, rfl⟩ | ⟨hpos, t, hmt, rfl⟩⟩ := patternValue_number hm h
  · have hprod : 0 < g * 2 ^ t := Nat.mul_pos (by omega) (by positivity)
    exact ⟨1 - f.bias - f.M, t, rfl, le_rfl, by omega, by omega, by omega⟩
  · have hlead : 0 < 2 ^ f.M := by positivity
    exact ⟨e - f.bias - f.M, t, rfl, by omega, by omega, by omega, by omega⟩

/-- The value in an OK response of DECODE is that of the pattern at the head of the source (R160). -/
theorem patternValue_of_decode {E M : Nat} (hE : 2 ≤ E) (hM : 1 ≤ M) {bias : Int} {s t : State} {v : ExactValue}
    (ht : exec (.decode ⟨E, M, some bias⟩) s = .next t)
    (hr : t.responses = s.responses ++ [.ok (.value v)]) :
    ∃ sign e m, e < 2 ^ E ∧ m < 2 ^ M ∧ v = patternValue ⟨E, M, bias⟩ sign e m := by
  by_cases hlen : 1 + E + M ≤ s.sourceBits.length
  · obtain ⟨sign, e, m, rest, he, hm, hs⟩ := exists_fields hlen
    cases response_unique (exec_decode_of_fields hE hM bias he hm hs) rfl ht hr
    exact ⟨sign, e, m, he, hm, rfl⟩
  · cases response_unique (exec_decode_of_short hE hM bias (Nat.lt_of_not_le hlen)) rfl ht hr

/-- Settles O55: the bounds of the scaled integer, of which the magnitude is unchanged by trimming. -/
theorem decodeResultRange : Obligations.DecodeResultRange := by
  intro E M bias s u sign x g hE hM hu hr
  obtain ⟨sign', e, m, he, hm, hvalue⟩ := patternValue_of_decode hE hM hu hr
  obtain ⟨y, t, rfl, hlow, hhigh, hpos, hlt⟩ :=
    scaled_of_patternValue_number (f := ⟨E, M, bias⟩) hE he hm hvalue.symm
  dsimp only at hlow hhigh hlt
  have hg : 1 ≤ g := Nat.pos_of_mul_pos_right hpos
  have htM : t < M + 1 := (Nat.pow_lt_pow_iff_right (by norm_num)).1 ((Nat.le_mul_of_pos_left _ hg).trans_lt hlt)
  refine ⟨hg, (Nat.le_mul_of_pos_right _ (by positivity)).trans_lt hlt, by omega, by omega, ?_, ?_⟩
  · rw [← magnitude_mul_two_pow]
    exact magnitude_le_magnitude hlow hpos
  · rw [← magnitude_mul_two_pow]
    exact magnitude_le_magnitude hhigh (by omega)

/-! ### Losslessness -/

theorem realValue_number (sign : Bool) (e : Int) (g : Nat) :
    realValue (.number sign e g) = some ((if sign then -1 else 1) * magnitude e g) := rfl

/-- Exponent field 0 (R64): zero or a subnormal. -/
theorem realValue_patternValue_zero {f : Format} (hE : 2 ≤ f.E) (sign : Bool) (m : Nat) :
    realValue (patternValue f sign 0 m) = some ((if sign then -1 else 1) * magnitude (1 - f.bias - f.M) m) := by
  have hone := one_lt_allOnes hE
  rw [patternValue_finite (by omega)]
  rcases Nat.eq_zero_or_pos m with rfl | hpos
  · simp [finiteValue_zero, realValue, magnitude]
  · obtain ⟨g, t, hg, rfl⟩ := exists_odd_mul_two_pow hpos
    rw [finiteValue_subnormal f sign hg, realValue_number, magnitude_mul_two_pow]

/-- Exponent field `1 .. 2^E - 2` (R64): a normal number. -/
theorem realValue_patternValue_normal {f : Format} (sign : Bool) {e m : Nat} (h1 : 1 ≤ e) (h2 : e ≤ 2 ^ f.E - 2)
    (hm : m < 2 ^ f.M) : realValue (patternValue f sign e m)
      = some ((if sign then -1 else 1) * magnitude (e - f.bias - f.M) (2 ^ f.M + m)) := by
  have hpow : 0 < 2 ^ f.E := by positivity
  obtain ⟨g, t, hg, hgt⟩ := exists_odd_mul_two_pow (n := m + 2 ^ f.M) (by positivity)
  obtain ⟨hvalue, -⟩ := finiteValue_normal f sign (Nat.ne_of_gt h1) hm hg hgt
  rw [patternValue_finite (by omega), hvalue, realValue_number, Nat.add_comm (2 ^ f.M), hgt,
    magnitude_mul_two_pow]

/-- Exponent field `2^E - 1` (R64): no real number. -/
theorem realValue_patternValue_allOnes (f : Format) (sign : Bool) (m : Nat) :
    realValue (patternValue f sign (2 ^ f.E - 1) m) = none := by
  rw [patternValue_allOnes]
  split <;> rfl

/-- A value other than NaN determines the word it was decoded from, since encoding gives that word back. -/
theorem formatWord_eq_encodedWord {f : Format} (hE : 2 ≤ f.E) {sign : Bool} {e m : Nat} (he : e < 2 ^ f.E)
    (hm : m < 2 ^ f.M) (hnan : patternValue f sign e m ≠ .nan) :
    formatWord f.E f.M sign e m = encodedWord f (patternValue f sign e m) := by
  rw [encodedWord_patternValue hE sign he hm, if_neg]
  rintro ⟨rfl, hne⟩
  exact hnan (by rw [patternValue_allOnes, if_neg hne])

/-- The value DECODE answers to a source that begins with the word of given fields. -/
theorem value_of_decode_formatWord {E M : Nat} (hE : 2 ≤ E) (hM : 1 ≤ M) {bias : Int} {s t : State} {sign : Bool}
    {e m : Nat} {rest : List Bool} {v : ExactValue} (he : e < 2 ^ E) (hm : m < 2 ^ M)
    (hs : s.sourceBits = wordBits E M (formatWord E M sign e m) ++ rest)
    (ht : exec (.decode ⟨E, M, some bias⟩) s = .next t)
    (hr : t.responses = s.responses ++ [.ok (.value v)]) : patternValue ⟨E, M, bias⟩ sign e m = v := by
  rw [wordBits_formatWord sign he hm] at hs
  exact Result.value.inj (Response.ok.inj (response_unique (exec_decode_of_fields hE hM bias he hm hs) rfl ht hr))

/-- Settles O56: the real number by the class of the pattern; the word is the one the value is encoded as. -/
theorem decodeIsLossless : Obligations.DecodeIsLossless := by
  intro E M bias hE hM
  constructor
  · intro s t sign e m rest v he hm hs ht hr
    obtain rfl := value_of_decode_formatWord hE hM he hm hs ht hr
    refine ⟨?_, fun h1 h2 => realValue_patternValue_normal sign h1 h2 hm, ?_⟩
    · rintro rfl
      exact realValue_patternValue_zero hE sign m
    · rintro rfl
      exact realValue_patternValue_allOnes ⟨E, M, bias⟩ sign m
  · intro s t s' t' W W' rest rest' v hW hW' hs hs' ht hr ht' hr' hnan
    obtain ⟨sign, e, m, he, hm, rfl⟩ := exists_formatWord hW
    obtain ⟨sign', e', m', he', hm', rfl⟩ := exists_formatWord hW'
    obtain rfl := value_of_decode_formatWord hE hM he hm hs ht hr
    have hsame := value_of_decode_formatWord hE hM he' hm' hs' ht' hr'
    calc formatWord E M sign e m
        = encodedWord ⟨E, M, bias⟩ (patternValue ⟨E, M, bias⟩ sign e m) :=
          formatWord_eq_encodedWord (f := ⟨E, M, bias⟩) hE he hm hnan
      _ = encodedWord ⟨E, M, bias⟩ (patternValue ⟨E, M, bias⟩ sign' e' m') := by rw [hsame]
      _ = formatWord E M sign' e' m' :=
          (formatWord_eq_encodedWord (f := ⟨E, M, bias⟩) hE he' hm' (hsame ▸ hnan)).symm

/-! ### Round trip -/

/-- A canonical Number in the range of the normals is the value of a pattern: the significand, aligned to `M + 1`
bits, without its leading bit (R123, R167). -/
theorem exists_pattern_of_normal {f : Format} (sign : Bool) {sig : Nat} {exp ef : Int} (hodd : sig % 2 = 1)
    (hef : ef = exp + f.bias + ((bitLength sig : Int) - 1)) (hlen : bitLength sig ≤ f.M + 1) (h1 : 1 ≤ ef)
    (h2 : ef ≤ 2 ^ f.E - 2) :
    ∃ e m, e < 2 ^ f.E ∧ m < 2 ^ f.M ∧ patternValue f sign e m = .number sign exp sig := by
  have hcast : ((2 ^ f.E : Nat) : Int) = 2 ^ f.E := by norm_num
  have hpos : 0 < bitLength sig := bitLength_pos (by omega)
  have hlead : 2 ^ (bitLength sig - 1) * 2 ^ (f.M - (bitLength sig - 1)) = 2 ^ f.M := pow_mul_pow_sub 2 (by omega)
  have hmant : (sig - 2 ^ (bitLength sig - 1)) * 2 ^ (f.M - (bitLength sig - 1)) + 2 ^ f.M
      = sig * 2 ^ (f.M - (bitLength sig - 1)) := by
    rw [← hlead, ← Nat.add_mul, Nat.sub_add_cancel (two_pow_le_of_bitLength (by omega))]
  obtain ⟨hvalue, -⟩ := finiteValue_normal f sign (efield := ef.toNat) (by omega) (normal_field_lt hlen) hodd hmant
  refine ⟨ef.toNat, _, by omega, normal_field_lt hlen, ?_⟩
  rw [patternValue_finite (by omega), hvalue]
  congr 1
  omega

/-- A canonical Number in the range of the subnormals is the value of a pattern with exponent field 0 (R123,
R166). -/
theorem exists_pattern_of_subnormal {f : Format} (hE : 2 ≤ f.E) (sign : Bool) {sig : Nat} {exp ef : Int}
    (hodd : sig % 2 = 1) (hef : ef = exp + f.bias + ((bitLength sig : Int) - 1)) (h0 : ef ≤ 0)
    (hfits : (bitLength sig : Int) - 1 - ef ≤ f.M - 1) :
    ∃ e m, e < 2 ^ f.E ∧ m < 2 ^ f.M ∧ patternValue f sign e m = .number sign exp sig := by
  have hone := one_lt_allOnes hE
  obtain ⟨t, ht⟩ := Int.eq_ofNat_of_zero_le (by omega : 0 ≤ exp - (1 - f.bias - f.M))
  have hm : sig * 2 ^ t < 2 ^ f.M := by
    rw [← bitLength_le_iff, bitLength_mul_two_pow (by omega)]
    omega
  refine ⟨0, sig * 2 ^ t, by positivity, hm, ?_⟩
  rw [patternValue_finite (by omega), finiteValue_subnormal f sign hodd]
  congr 1
  omega

/-- Settles O59: the Number is the value of a pattern; ENC.NUM writes that pattern's word and DECODE answers its
value. -/
theorem representableRoundTrip : Obligations.RepresentableRoundTrip := by
  intro E M sig bias exp sign s hE hM hodd hi ho L ef hrep
  obtain ⟨e, m, he, hm, hvalue⟩ :
      ∃ e m, e < 2 ^ E ∧ m < 2 ^ M ∧ patternValue ⟨E, M, bias⟩ sign e m = .number sign exp sig := by
    rcases hrep with ⟨hlen, h1, h2⟩ | ⟨h0, hfits⟩
    · exact exists_pattern_of_normal (f := ⟨E, M, bias⟩) sign hodd rfl (by dsimp only; omega) h1 h2
    · exact exists_pattern_of_subnormal (f := ⟨E, M, bias⟩) hE sign hodd rfl h0 hfits
  obtain ⟨t, ht, hw⟩ := exec_encCommand_wrote hE hM bias (v := .number sign exp sig)
    (show 0 < sig by omega) hi ho
  have hword := formatWord_eq_encodedWord (f := ⟨E, M, bias⟩) hE he hm (by rw [hvalue]; exact nofun)
  rw [hvalue] at hword
  rw [← hword, wordBits_formatWord sign he hm] at hw
  refine ⟨t, _, ht, hw, fun u rest hu => ?_⟩
  rw [exec_decode_of_fields hE hM bias he hm hu, hvalue]
  rfl

end Sys2Proof.Machine
end

section
/-! PROOF. One step: the host's moves (R57, R79), commands and illegal words (R73, R76), the reset event (R215), and
the invariant of a command boundary (R22, R23). -/

namespace Sys2Proof.Machine

/-! ### The step by its move -/

theorem step_of_nil {s : State} (h : s.moves = []) : step s = .next s := by
  rw [step, h]

theorem step_of_cons {s : State} {m : HostMove} {rest : List HostMove} (h : s.moves = m :: rest) :
    step s = performMove m (s.setMoves rest) := by
  rw [step, h]

theorem issueCommand_of_ok {r : Request} {i : Instr} (h : decodeRequest r = .ok i) (s : State) :
    issueCommand r s = exec i s := by
  rw [issueCommand, h]

theorem issueCommand_of_error {r : Request} {x : Reject} (h : decodeRequest r = .error x) (s : State) :
    issueCommand r s = .next (s.respond (.error .illegal)) := by
  rw [issueCommand, h]
  rfl

/-- An issued command is executed, or its word is illegal (R71, R76). -/
theorem issueCommand_cases {r : Request} {s t : State} (h : issueCommand r s = .next t) :
    (∃ i, decodeRequest r = .ok i ∧ exec i s = .next t) ∨ t = s.respond (.error .illegal) := by
  cases hdec : decodeRequest r with
  | ok i => exact .inl ⟨i, rfl, issueCommand_of_ok hdec s ▸ h⟩
  | error x =>
    rw [issueCommand_of_error hdec] at h
    exact .inr (Host.Outcome.next.inj h).symm

/-- Settles O7. -/
theorem stepRunsDecodedCommand : Obligations.StepRunsDecodedCommand := fun s _ rest _ hm hdec =>
  (step_of_cons hm).trans (issueCommand_of_ok hdec (s.setMoves rest))

/-- Settles O8. -/
theorem stepRejectsIllegalWord : Obligations.StepRejectsIllegalWord := fun s _ rest _ hm hdec =>
  (step_of_cons hm).trans (issueCommand_of_error hdec (s.setMoves rest))

/-- Settles O9, move by move. -/
theorem stepHostQueueMoves : Obligations.StepHostQueueMoves := fun _ _ =>
  ⟨fun _ h => step_of_cons h, fun h => step_of_cons h, fun _ _ h => step_of_cons h, fun h => step_of_cons h,
    step_of_nil⟩

/-- Settles O10; the byte is the next free value. -/
theorem stepResetEvent : Obligations.StepResetEvent := fun s _ h =>
  ⟨Config.unspecifiedByte s.draws, step_of_cons h⟩

/-- Settles O11. -/
theorem resetStateValues : Obligations.ResetStateValues :=
  ⟨rfl, rfl, rfl, rfl, rfl, rfl, rfl, rfl⟩

/-- Every issued command ends with a next state (R19, R73). -/
theorem issueCommand_next (r : Request) (s : State) : ∃ t, issueCommand r s = .next t := by
  cases hdec : decodeRequest r with
  | ok i => exact ⟨_, (issueCommand_of_ok hdec s).trans (exec_eq_respond i s)⟩
  | error x => exact ⟨_, issueCommand_of_error hdec s⟩

/-- Settles O12: every move has a next state. -/
theorem stepNeverStops : Obligations.StepNeverStops := by
  intro s
  cases hm : s.moves with
  | nil => exact ⟨s, step_of_nil hm⟩
  | cons m rest =>
    rw [step_of_cons hm]
    cases m with
    | command r => exact issueCommand_next r _
    | push bytes => exact ⟨_, rfl⟩
    | take => exact ⟨_, rfl⟩
    | remove start count => exact ⟨_, rfl⟩
    | copy => exact ⟨_, rfl⟩
    | reset => exact ⟨_, rfl⟩

/-! ### Responses -/

/-- An issued command adds one response and leaves the moves to come alone (R73). -/
theorem issueCommand_response {r : Request} {s t : State} (h : issueCommand r s = .next t) :
    t.moves = s.moves ∧ ∃ a, t.responses = s.responses ++ [a] := by
  rcases issueCommand_cases h with ⟨i, -, hexec⟩ | rfl
  · obtain ⟨rfl, hframe⟩ := exec_next_frame hexec
    exact ⟨hframe.moves, _, by rw [State.respond_responses, hframe.responses]⟩
  · exact ⟨rfl, _, rfl⟩

/-- Settles O13: of the six moves only a command responds. -/
theorem oneResponsePerCommand : Obligations.OneResponsePerCommand := by
  intro s t m rest hm h
  rw [step_of_cons hm] at h
  cases m with
  | command r =>
    obtain ⟨hmoves, hresp⟩ := issueCommand_response h
    exact ⟨hmoves, fun _ => hresp, fun hne => absurd rfl (hne r)⟩
  | push bytes => cases h; exact ⟨rfl, nofun, fun _ => rfl⟩
  | take => cases h; exact ⟨rfl, nofun, fun _ => rfl⟩
  | remove start count => cases h; exact ⟨rfl, nofun, fun _ => rfl⟩
  | copy => cases h; exact ⟨rfl, nofun, fun _ => rfl⟩
  | reset => cases h; exact ⟨rfl, nofun, fun _ => rfl⟩

/-! ### The invariant -/

/-- Settles O14. -/
theorem invariantHoldsAtReset : Obligations.InvariantHoldsAtReset := by
  unfold Obligations.InvariantHoldsAtReset
  decide

/-- A command whose operands pass their checks (R186), with the ENC commands as `ENC fmt, value` (R79). -/
inductive ValidCommand : Instr → Prop where
  | srcNext : ValidCommand .srcNext
  | snkWrite (b : Bool) : ValidCommand (.snkWrite b)
  | snkFlush : ValidCommand .snkFlush
  | snkClose : ValidCommand .snkClose
  | enc {E M : Nat} (hE : 2 ≤ E) (hM : 1 ≤ M) (bias : Int) (v : ExactValue) (hv : Encodable v) :
      ValidCommand (encCommand ⟨E, M, some bias⟩ v)
  | decode (fmt : Descriptor) : ValidCommand (.decode fmt)

theorem validCommand_of_wellFormed {i : Instr} (hw : i.WellFormed) : ValidCommand i := by
  cases i with
  | srcNext => exact .srcNext
  | snkWrite b => exact .snkWrite b
  | snkFlush => exact .snkFlush
  | snkClose => exact .snkClose
  | encZero fmt sign =>
    obtain ⟨E, M, bias, hE, hM, rfl, -⟩ := formatOf_of_wellFormed hw
    exact .enc hE hM bias (.zero sign) trivial
  | encInf fmt sign =>
    obtain ⟨E, M, bias, hE, hM, rfl, -⟩ := formatOf_of_wellFormed hw
    exact .enc hE hM bias (.infinity sign) trivial
  | encNan fmt =>
    obtain ⟨E, M, bias, hE, hM, rfl, -⟩ := formatOf_of_wellFormed hw
    exact .enc hE hM bias .nan trivial
  | encNum fmt sign exp sig =>
    obtain ⟨hfmt, hnum⟩ := Bool.and_eq_true_iff.1 hw
    obtain ⟨E, M, bias, hE, hM, rfl, -⟩ := formatOf_of_wellFormed hfmt
    obtain ⟨e, g, hg, rfl, rfl, -⟩ := numberOf_of_wellFormed hnum
    exact .enc hE hM bias (.number sign e g) hg
  | decode fmt => exact .decode fmt

theorem markClosed_inv {s : State} (h : s.snk.Inv) (hc : s.snk.cnt = 0) : (markClosed s).snk.Inv :=
  ⟨h.1, h.2.1, fun _ => hc⟩

/-- A command that uses an open sink leaves it with the invariant (R23, R93). -/
theorem exec_open_sinkInv {i : Instr} (hv : ValidCommand i) (hr : ¬ ReadsSource i) {s : State} (hinv : s.Inv)
    (ho : s.snk.closed = false) : ∃ t, exec i s = .next t ∧ t.snk.Inv := by
  cases hv with
  | srcNext => exact absurd (.inl rfl) hr
  | snkWrite b =>
    obtain ⟨t, ht, hw⟩ := sinkKeepsBitOrder b s hinv ho
    exact ⟨t, ht, hw.sinkInv⟩
  | snkFlush => exact ⟨_, exec_snkFlush_open ho, flushPending_inv hinv.2⟩
  | snkClose => exact ⟨_, exec_snkClose_open ho, markClosed_inv (flushPending_inv hinv.2) (flushPending_cnt s)⟩
  | enc hE hM bias v hv =>
    obtain ⟨t, ht, hw⟩ := exec_encCommand_wrote hE hM bias hv hinv ho
    exact ⟨t, ht, hw.sinkInv⟩
  | decode fmt => exact absurd (.inr ⟨fmt, rfl⟩) hr

/-- Every command keeps the invariant: the source by how far the cursor moved, the sink as a command on an open
sink leaves it. -/
theorem exec_inv {i : Instr} {s t : State} (hinv : s.Inv) (h : exec i s = .next t) : t.Inv := by
  obtain ⟨hsrc, hsnk⟩ := hinv
  have hread : ∀ n, (s.afterReading n).Inv := fun n => ⟨State.afterReading_inv hsrc, hsnk⟩
  have hwrite : i.WellFormed → ¬ ReadsSource i → s.snk.closed = false → t.Inv := fun hw hr ho => by
    obtain ⟨u, hu, huinv⟩ := exec_open_sinkInv (validCommand_of_wellFormed hw) hr ⟨hsrc, hsnk⟩ ho
    obtain rfl := Host.Outcome.next.inj (h.symm.trans hu)
    obtain ⟨rfl, hframe⟩ := exec_next_frame h
    exact ⟨(hframe.source hr).1 ▸ hsrc, huinv⟩
  obtain ⟨ht, -⟩ := exec_next_frame h
  have hcases := commandRun_cases i s
  generalize commandRun i s = r at hcases ht
  cases hcases with
  | argument => subst ht; exact ⟨hsrc, hsnk⟩
  | closed => subst ht; exact ⟨hsrc, hsnk⟩
  | emptySource => subst ht; exact ⟨hsrc, hsnk⟩
  | shortSource => subst ht; exact hread _
  | read r n => subst ht; exact hread n
  | wrote u hw hr ho => exact hwrite hw hr ho
  | closes hi ho => exact hwrite (hi ▸ rfl) (by simp [hi, ReadsSource]) ho

/-- Settles O15: the queues are no part of the invariant, a reset event makes it true, and commands keep it. -/
theorem stepKeepsInvariant : Obligations.StepKeepsInvariant := by
  intro s t hinv h
  cases hm : s.moves with
  | nil =>
    rw [step_of_nil hm] at h
    exact Host.Outcome.next.inj h ▸ hinv
  | cons m rest =>
    rw [step_of_cons hm] at h
    cases m with
    | command r =>
      rcases issueCommand_cases h with ⟨i, -, hexec⟩ | rfl
      · exact exec_inv (s := s.setMoves rest) hinv hexec
      · exact hinv
    | push bytes => cases h; exact hinv
    | take => cases h; exact hinv
    | remove start count => cases h; exact hinv
    | copy => cases h; exact hinv
    | reset => cases h; exact ⟨Nat.zero_le 7, (by decide : BitSink.Inv ⟨0x00#8, 0, false⟩)⟩

/-! ### The closed flag -/

/-- A command leaves the closed flag as it is, or it is SNK.CLOSE on an open sink, answered OK (R24, R93). -/
theorem exec_closed {i : Instr} {s t : State} (h : exec i s = .next t) :
    t.snk.closed = s.snk.closed ∨
      (i = .snkClose ∧ t.snk.closed = true ∧ t.responses = s.responses ++ [.ok .nothing]) := by
  obtain ⟨rfl, -⟩ := exec_next_frame h
  have hcases := commandRun_cases i s
  generalize commandRun i s = r at hcases
  cases hcases with
  | argument => exact .inl rfl
  | closed => exact .inl rfl
  | emptySource => exact .inl rfl
  | shortSource => exact .inl rfl
  | read => exact .inl rfl
  | wrote u _ _ _ _ hframe => exact .inl hframe.closed
  | closes hi => exact .inr ⟨hi, rfl, congrArg (· ++ [_]) (flushPending_responses s)⟩

/-- After SNK.CLOSE the sink is closed, whether it was before or not (R93, R187). -/
theorem exec_snkClose_closed {s t : State} (h : exec .snkClose s = .next t) : t.snk.closed = true := by
  cases ho : s.snk.closed with
  | true => exact (exec_closed h).elim (fun hsame => hsame.trans ho) (fun hclose => hclose.2.1)
  | false =>
    rw [exec_snkClose_open ho] at h
    cases h
    rfl

/-- The one word of SNK.CLOSE (R71). -/
theorem eq_of_decodeRequest_snkClose {r : Request} (h : decodeRequest r = .ok .snkClose) :
    r = ⟨0x40#8, r.ports⟩ := by
  have hcmd : 0x40#8 = r.cmd := decodeEncodeAgree.2 r .snkClose h
  rw [hcmd]

/-- A step leaves the closed flag as it is, or it is a command 0x40 answered OK or a reset event. -/
theorem step_closed {s t : State} (h : step s = .next t) :
    t.snk.closed = s.snk.closed ∨
      (t.snk.closed = true ∧
        ∃ p rest, s.moves = .command ⟨0x40#8, p⟩ :: rest ∧ t.responses = s.responses ++ [.ok .nothing]) ∨
      (t.snk.closed = false ∧ ∃ rest, s.moves = .reset :: rest) := by
  cases hm : s.moves with
  | nil =>
    rw [step_of_nil hm] at h
    cases h
    exact .inl rfl
  | cons m rest =>
    rw [step_of_cons hm] at h
    cases m with
    | command r =>
      rcases issueCommand_cases h with ⟨i, hdec, hexec⟩ | rfl
      · rcases exec_closed hexec with heq | ⟨rfl, hclosed, hresp⟩
        · exact .inl heq
        · exact .inr (.inl ⟨hclosed, r.ports, rest, by rw [← eq_of_decodeRequest_snkClose hdec], hresp⟩)
      · exact .inl rfl
    | push bytes => cases h; exact .inl rfl
    | take => cases h; exact .inl rfl
    | remove start count => cases h; exact .inl rfl
    | copy => cases h; exact .inl rfl
    | reset => cases h; exact .inr (.inr ⟨rfl, rest, rfl⟩)

/-- Settles O16: a flag that changed tells which of the three it was. -/
theorem closedFlagOnlyByCloseAndReset : Obligations.ClosedFlagOnlyByCloseAndReset := by
  intro s t h
  refine ⟨fun h0 h1 => ?_, fun h1 h0 => ?_, fun p rest hm => ?_, fun rest hm => ?_⟩
  · rcases step_closed h with heq | ⟨-, hclose⟩ | ⟨hclear, -⟩
    · simp [heq, h0] at h1
    · exact hclose
    · simp [hclear] at h1
  · rcases step_closed h with heq | ⟨hset, -⟩ | ⟨-, hreset⟩
    · simp [heq, h1] at h0
    · simp [hset] at h0
    · exact hreset
  · rw [step_of_cons hm] at h
    exact exec_snkClose_closed ((issueCommand_of_ok (decodeRequest_word .snkClose p) _).symm.trans h)
  · rw [step_of_cons hm] at h
    cases h
    rfl

end Sys2Proof.Machine
end

section
/-! PROOF. Bits of SRC.byte already delivered have no effect (R21): commands that read depend on the source through
its bits only, and the others ignore its registers. -/

namespace Sys2Proof.Machine

/-! ### Commands that read the source -/

/-- SRC.NEXT and DECODE depend on the bits of the source only: for one sequence of bits they move the cursor alike
and answer alike (R90, R175). -/
theorem exec_reads_sourceBits {i : Instr} (hi : ReadsSource i) (s : State) :
    ∃ n a, n ≤ s.src.cnt + 8 * s.srcIn.length ∧
      ∀ t : State, t.sourceBits = s.sourceBits → exec i t = .next ((t.afterReading n).respond a) := by
  rcases hi with rfl | ⟨fmt, rfl⟩
  · cases hb : s.sourceBits with
    | nil =>
      refine ⟨0, .error .io, Nat.zero_le _, fun t ht => ?_⟩
      rw [State.afterReading_zero, exec_srcNext_of_empty ht]
    | cons b bits =>
      refine ⟨1, .ok (.bit b), ?_, fun t ht => exec_srcNext_of_cons ht⟩
      rw [← State.sourceBits_length, hb]
      simp
  · cases hwf : fmt.wellFormed with
    | false =>
      refine ⟨0, .error .argument, Nat.zero_le _, fun t _ => ?_⟩
      rw [State.afterReading_zero, exec_decode_of_not_wellFormed hwf]
    | true =>
      obtain ⟨E, M, bias, hE, hM, rfl, -⟩ := formatOf_of_wellFormed hwf
      by_cases hlen : 1 + E + M ≤ s.sourceBits.length
      · obtain ⟨sign, e, m, rest, he, hm, hs⟩ := exists_fields hlen
        exact ⟨1 + E + M, _, State.sourceBits_length s ▸ hlen,
          fun t ht => exec_decode_of_fields hE hM bias he hm (ht.trans hs)⟩
      · refine ⟨s.sourceBits.length, .error .io, (State.sourceBits_length s).le, fun t ht => ?_⟩
        rw [← ht] at hlen ⊢
        exact exec_decode_of_short hE hM bias (Nat.lt_of_not_le hlen)

theorem SameArchitecturalState.sourceBits {s t : State} (h : SameArchitecturalState s t) :
    t.sourceBits = s.sourceBits := by
  have hund : t.src.undelivered = s.src.undelivered := by
    unfold BitSource.undelivered msbFirst
    rw [← h.cnt]
    refine List.map_congr_left fun k hk => (h.low _ ?_).symm
    have := List.mem_range.1 hk
    omega
  rw [State.sourceBits, State.sourceBits, hund, h.srcIn]

theorem SameArchitecturalState.respond {s t : State} (h : SameArchitecturalState s t) (a : Response) :
    SameArchitecturalState (s.respond a) (t.respond a) where
  cnt := h.cnt
  low := h.low
  snk := h.snk
  srcIn := h.srcIn
  snkOut := h.snkOut
  moves := h.moves
  responses := congrArg (· ++ [a]) h.responses
  draws := h.draws

/-- Once a byte is pulled SRC.byte is one of SRC_IN, whatever it was. -/
theorem getLastD_take_eq {q : List Byte} {k : Nat} (hk : 0 < k) (hq : 0 < q.length) (a b : Byte) :
    (q.take k).getLastD a = (q.take k).getLastD b := by
  obtain ⟨k, rfl⟩ := Nat.exists_eq_add_of_lt hk
  cases q with
  | nil => simp at hq
  | cons c q => rw [List.take_succ_cons, List.getLastD_cons, List.getLastD_cons]

/-- The cursor moves alike: no new byte, and fewer bits of the old one count; or a byte of the common SRC_IN. -/
theorem SameArchitecturalState.afterReading {s t : State} (h : SameArchitecturalState s t) {n : Nat}
    (hn : n ≤ s.src.cnt + 8 * s.srcIn.length) :
    SameArchitecturalState (s.afterReading n) (t.afterReading n) where
  cnt := by rw [State.afterReading_cnt, State.afterReading_cnt, h.cnt]
  low := by
    intro i hi
    simp only [State.afterReading_cnt] at hi
    simp only [State.afterReading, ← h.cnt, ← h.srcIn]
    rcases Nat.eq_zero_or_pos (bytesPulled n s.src.cnt) with hk | hk
    · rw [hk] at hi ⊢
      exact h.low i (by omega)
    · have hq : 0 < s.srcIn.length := by
        unfold bytesPulled at hk
        omega
      rw [getLastD_take_eq hk hq s.src.byte t.src.byte]
  snk := h.snk
  srcIn := by rw [State.afterReading_srcIn, State.afterReading_srcIn, h.srcIn, h.cnt]
  snkOut := h.snkOut
  moves := h.moves
  responses := h.responses
  draws := h.draws

/-! ### Commands that do not -/

/-- A run with the registers of the Bit Source replaced in the state it ends in. -/
def Run.withSource {α : Type} (v : BitSource) : Run α → Run α
  | .done a s => .done a (s.setSource v)
  | .raised e s => .raised e (s.setSource v)

/-- A piece of a command that neither reads nor writes the registers of the Bit Source. -/
def IgnoresSource {α : Type} (f : State → Run α) : Prop :=
  ∀ (v : BitSource) (s : State), f (s.setSource v) = (f s).withSource v

theorem IgnoresSource.andThen {α β : Type} {f : State → Run α} {g : α → State → Run β} (hf : IgnoresSource f)
    (hg : ∀ a, IgnoresSource (g a)) : IgnoresSource fun s => (f s).andThen g := by
  intro v s
  dsimp only
  rw [hf v s]
  cases f s with
  | done a t => exact hg a v t
  | raised e t => rfl

theorem IgnoresSource.done {α : Type} (a : α) : IgnoresSource (.done a) := fun _ _ => rfl

theorem IgnoresSource.ite {α : Type} {f g : State → Run α} (p : Prop) [Decidable p] (hf : IgnoresSource f)
    (hg : IgnoresSource g) : IgnoresSource fun s => if p then f s else g s := by
  intro v s
  dsimp only
  split
  · exact hf v s
  · exact hg v s

theorem requireOpen_ignoresSource : IgnoresSource requireOpen := by
  intro v s
  cases h : s.snk.closed <;> simp [requireOpen, h, Run.withSource]

theorem requireOperand_ignoresSource {α : Type} (o : Option α) : IgnoresSource (requireOperand o) := by
  intro v s
  cases o <;> rfl

theorem writeBit_ignoresSource (b : Bool) : IgnoresSource (writeBit b) :=
  requireOpen_ignoresSource.andThen fun _ v s => by
    by_cases h : s.snk.cnt + 1 = 8
    · simp only [State.setSource_snk, h, ↓reduceIte]
      rfl
    · simp only [State.setSource_snk, h, ↓reduceIte]
      rfl

theorem writeSlice_ignoresSource (w : Nat) (top : Int) (n : Nat) : IgnoresSource (writeSlice w top n) := by
  induction n generalizing top with
  | zero => exact .done ()
  | succ n ih => exact (writeBit_ignoresSource _).andThen fun _ => ih (top - 1)

theorem writeBits_ignoresSource (w n : Nat) : IgnoresSource (writeBits w n) := writeSlice_ignoresSource w _ n

theorem flushPending_setSource (v : BitSource) (s : State) :
    flushPending (s.setSource v) = (flushPending s).setSource v := by
  unfold flushPending
  rw [State.setSource_snk]
  split <;> rfl

theorem encodeZero_ignoresSource (f : Format) (sign : Bool) : IgnoresSource (encodeZero f sign) :=
  (writeBit_ignoresSource _).andThen fun _ =>
    (writeBits_ignoresSource _ _).andThen fun _ => writeBits_ignoresSource _ _

theorem encodeInfinity_ignoresSource (f : Format) (sign : Bool) : IgnoresSource (encodeInfinity f sign) :=
  (writeBit_ignoresSource _).andThen fun _ =>
    (writeBits_ignoresSource _ _).andThen fun _ => writeBits_ignoresSource _ _

theorem encodeNan_ignoresSource (f : Format) : IgnoresSource (encodeNan f) :=
  (writeBit_ignoresSource _).andThen fun _ =>
    (writeBits_ignoresSource _ _).andThen fun _ =>
      (writeBit_ignoresSource _).andThen fun _ => writeBits_ignoresSource _ _

theorem encodeNumber_ignoresSource (f : Format) (sign : Bool) (exp : Int) (sig : Nat) :
    IgnoresSource (encodeNumber f sign exp sig) :=
  have hword (w : Nat) (top : Int) : IgnoresSource fun s => (writeBit sign s).andThen fun _ s =>
      (writeBits w f.E s).andThen fun _ s => writeSlice (roundSignificand f.M sig exp).1 top f.M s :=
    (writeBit_ignoresSource _).andThen fun _ =>
      (writeBits_ignoresSource _ _).andThen fun _ => writeSlice_ignoresSource _ _ _
  .ite _ (.ite _ (encodeZero_ignoresSource f sign) (hword _ _))
    (.ite _ (encodeInfinity_ignoresSource f sign) (hword _ _))

/-- Every command but SRC.NEXT and DECODE ignores the registers of the Bit Source (R53). -/
theorem commandRun_ignoresSource {i : Instr} (hi : ¬ ReadsSource i) : IgnoresSource (commandRun i) := by
  have hnothing {α : Type} (_ : α) : IgnoresSource (Run.done Result.nothing) := .done _
  cases i with
  | srcNext => exact absurd (.inl rfl) hi
  | snkWrite b => exact (writeBit_ignoresSource b).andThen hnothing
  | snkFlush =>
    exact requireOpen_ignoresSource.andThen fun _ v s =>
      congrArg (Run.done _) (flushPending_setSource v s)
  | snkClose =>
    exact requireOpen_ignoresSource.andThen fun _ v s =>
      congrArg (fun u => Run.done _ (markClosed u)) (flushPending_setSource v s)
  | encZero fmt sign =>
    exact (requireOperand_ignoresSource _).andThen fun f => (encodeZero_ignoresSource f sign).andThen hnothing
  | encInf fmt sign =>
    exact (requireOperand_ignoresSource _).andThen fun f => (encodeInfinity_ignoresSource f sign).andThen hnothing
  | encNan fmt =>
    exact (requireOperand_ignoresSource _).andThen fun f => (encodeNan_ignoresSource f).andThen hnothing
  | encNum fmt sign exp sig =>
    exact (requireOperand_ignoresSource _).andThen fun f => (requireOperand_ignoresSource _).andThen fun n =>
      (encodeNumber_ignoresSource f sign n.1 n.2).andThen hnothing
  | decode fmt => exact absurd (.inr ⟨fmt, rfl⟩) hi

theorem SameArchitecturalState.eq_setSource {s t : State} (h : SameArchitecturalState s t) :
    t = s.setSource t.src := by
  obtain ⟨-, -, hsnk, hsrcIn, hsnkOut, hmoves, hresp, hdraws⟩ := h
  rcases s with ⟨_, _, _, _, _, _, _⟩
  cases hsnk; cases hsrcIn; cases hsnkOut; cases hmoves; cases hresp; cases hdraws
  rfl

/-- Such a command ends in the same state but for the registers of the Bit Source, which it keeps. -/
theorem exec_setSource {i : Instr} (hi : ¬ ReadsSource i) {s s' : State} (h : exec i s = .next s')
    (v : BitSource) : exec i (s.setSource v) = .next (s'.setSource v) := by
  rw [exec_eq_finish] at h ⊢
  rw [commandRun_ignoresSource hi v s]
  cases hr : commandRun i s with
  | done r u => rw [hr] at h; cases h; rfl
  | raised e u => rw [hr] at h; cases h; rfl

/-! ### Every step -/

theorem SameArchitecturalState.exec {i : Instr} {s t s' t' : State} (h : SameArchitecturalState s t)
    (hs : exec i s = .next s') (ht : exec i t = .next t') : SameArchitecturalState s' t' := by
  by_cases hi : ReadsSource i
  · obtain ⟨n, a, hn, hexec⟩ := exec_reads_sourceBits hi s
    rw [hexec s rfl] at hs
    rw [hexec t h.sourceBits] at ht
    cases hs
    cases ht
    exact (h.afterReading hn).respond a
  · rw [h.eq_setSource, exec_setSource hi hs] at ht
    cases ht
    obtain ⟨rfl, hframe⟩ := exec_next_frame hs
    have hsrc := (hframe.source hi).1
    exact ⟨hsrc ▸ h.cnt, fun k hk => by
      rw [State.respond_src, hsrc] at hk ⊢
      exact h.low k hk, rfl, rfl, rfl, rfl, rfl, rfl⟩

theorem SameArchitecturalState.setMoves {s t : State} (h : SameArchitecturalState s t) (m : List HostMove) :
    SameArchitecturalState (s.setMoves m) (t.setMoves m) :=
  { h with moves := rfl }

/-- A move of the host keeps the relation; a reset event leaves no bit of SRC.byte to deliver. -/
theorem SameArchitecturalState.performMove {m : HostMove} {s t s' t' : State} (h : SameArchitecturalState s t)
    (hs : performMove m s = .next s') (ht : performMove m t = .next t') : SameArchitecturalState s' t' := by
  cases m with
  | command r =>
    rw [Machine.performMove] at hs ht
    cases hdec : decodeRequest r with
    | ok i =>
      rw [issueCommand_of_ok hdec] at hs ht
      exact h.exec hs ht
    | error x =>
      rw [issueCommand_of_error hdec] at hs ht
      cases hs; cases ht
      exact h.respond _
  | push bytes => cases hs; cases ht; exact { h with srcIn := congrArg (· ++ bytes) h.srcIn }
  | take => cases hs; cases ht; exact { h with snkOut := rfl }
  | remove start count =>
    cases hs; cases ht
    exact { h with snkOut := congrArg (fun q => q.take start ++ q.drop (start + count)) h.snkOut }
  | copy => cases hs; cases ht; exact { h with srcIn := congrArg₂ (· ++ ·) h.srcIn h.snkOut }
  | reset =>
    cases hs; cases ht
    exact { h with cnt := rfl, low := nofun, snk := rfl, draws := congrArg (· + 1) h.draws }

/-- Settles O19: two related states perform the same move. -/
theorem deliveredBitsUnobservable : Obligations.DeliveredBitsUnobservable := by
  intro s t s' t' h hs ht
  cases hm : s.moves with
  | nil =>
    rw [step_of_nil hm] at hs
    rw [step_of_nil (h.moves ▸ hm)] at ht
    cases hs
    cases ht
    exact h
  | cons m rest =>
    rw [step_of_cons hm] at hs
    rw [step_of_cons (h.moves ▸ hm)] at ht
    exact (h.setMoves rest).performMove hs ht

end Sys2Proof.Machine
end
